-- ==== Sys2Proof/Word.lean ====
section
/-! DEFINITION. The words the core moves (00_scope.md R5, R6, R7): a command word of 16 bits, a byte or character of 8, a symbol of 5. -/

namespace Sys2Proof

/-- One command word (30_encoding.md R60). Bit 0 is the least significant (00_scope.md R7). -/
abbrev Word := BitVec 16

/-- A byte, a character code unit or a result word: u8 (00_scope.md R5, R6). -/
abbrev Byte := BitVec 8

/-- The 5-bit value of a digit, u5 (00_scope.md R5, R10). -/
abbrev Symbol := BitVec 5

end Sys2Proof
end

