-- ==== Sys2Proof/Syntax.lean ====
section
/-! DEFINITION. The commands (30_encoding.md R61), a command word split into its three fields (R60), and the ways a word is illegal (R63). -/

namespace Sys2Proof

/-- The twelve commands, one constructor per row of spec/opcode_table.json. Each operand has exactly the width
the command's field has (R61, R62), so every term is a command the core knows. -/
inductive Instr where
  /-- CANON c: canonicalize a character (R103). -/
  | canon (c : Byte)
  /-- ISVALID c: validity of a character (R104). -/
  | isvalid (c : Byte)
  /-- VALUE c: value of a character (R105). -/
  | value (c : Byte)
  /-- DIGIT v: character of a value (R106). -/
  | digit (v : Byte)
  /-- ENC.INIT: clear the encoder (R123). -/
  | encInit
  /-- ENC.BYTE b: append one byte to the encode job (R124). -/
  | encByte (b : Byte)
  /-- ENC.FLUSH: end the encode job (R125). -/
  | encFlush
  /-- DEC.INIT: clear the decoder and its error flag (R143). -/
  | decInit
  /-- DEC.SYM s: append one symbol to the decode job (R144). -/
  | decSym (s : Symbol)
  /-- DEC.CHAR c: canonicalize, validate and append one character (R145). -/
  | decChar (c : Byte)
  /-- DEC.FLUSH: end the decode job, report its verdict (R147). -/
  | decFlush
  /-- STATUS: read the status word (R170). -/
  | status
  deriving DecidableEq, Repr

/-- A command word as its three fields, format CMD: `oooo rrrr dddddddd` (R60). -/
structure RawCommand where
  /-- opcode, bits [15:12] -/
  op : BitVec 4
  /-- reserved, bits [11:8] -/
  rsv : BitVec 4
  /-- operand, bits [7:0] -/
  opd : Byte
  deriving DecidableEq, Repr

/-- Why a command word is illegal: the four cases of R63, in its order. -/
inductive Illegal where
  /-- (a) op is 0x0, 0xD, 0xE or 0xF -/
  | reservedOpcode
  /-- (b) rsv is not 0000 -/
  | reservedBits
  /-- (c) a command without an operand and opd is not 0x00 -/
  | operandNotZero
  /-- (d) DEC.SYM and opd[7:5] is not 000 -/
  | symbolTooWide
  deriving DecidableEq, Repr

end Sys2Proof
end

