-- ==== Sys2Proof/WellFormed.lean ====
section
/-! DEFINITION. When a command's fields are legal: R63 read as four checks, written apart from the decoder so that the two can be held against each other. A term of Instr needs no check: its operands have their fields' widths. -/

namespace Sys2Proof

/-- R63 (a): the opcode is one of the twelve assigned, 0x1 to 0xC. -/
def RawCommand.opcodeAssigned (r : RawCommand) : Bool :=
  decide (1 ≤ r.op.toNat) && decide (r.op.toNat ≤ 12)

/-- R63 (b): the reserved field is 0000. -/
def RawCommand.reservedClear (r : RawCommand) : Bool :=
  r.rsv == 0#4

/-- The opcodes of ENC.INIT, ENC.FLUSH, DEC.INIT, DEC.FLUSH and STATUS, which take no operand (R61). -/
def opcodesWithoutOperand : List (BitVec 4) :=
  [0x5#4, 0x7#4, 0x8#4, 0xB#4, 0xC#4]

/-- R63 (c): a command without an operand has opd = 0x00. -/
def RawCommand.operandClear (r : RawCommand) : Bool :=
  !opcodesWithoutOperand.contains r.op || r.opd == 0#8

/-- R63 (d): DEC.SYM has opd[7:5] = 000. -/
def RawCommand.symbolFits (r : RawCommand) : Bool :=
  r.op != 0x9#4 || r.opd.extractLsb' 5 3 == 0#3

/-- A legal command word, field by field: none of R63 (a) to (d) holds. -/
def RawCommand.wellFormed (r : RawCommand) : Bool :=
  r.opcodeAssigned && r.reservedClear && r.operandClear && r.symbolFits

end Sys2Proof
end

