-- ==== Sys2Proof/Decode.lean ====
section
/-! DEFINITION. Decoding a command word (30_encoding.md R60 to R65), total, rejecting by name; then the encoder, the pseudo-instructions (R69) and the host's reading of a table word. -/

namespace Sys2Proof

/-- The fields of a command word (R60). -/
def RawCommand.ofWord (w : Word) : RawCommand :=
  { op := w.extractLsb' 12 4, rsv := w.extractLsb' 8 4, opd := w.extractLsb' 0 8 }

/-- The command word of three fields (R60). -/
def RawCommand.toWord (r : RawCommand) : Word :=
  r.op ++ r.rsv ++ r.opd

/-- A row whose operand is all of opd: rsv must be 0000 (R62, R63 (b)). -/
def decodeOperand (r : RawCommand) (f : Byte → Instr) : Except Illegal Instr :=
  if r.rsv = 0#4 then .ok (f r.opd) else .error .reservedBits

/-- A row without an operand: rsv must be 0000 and opd 0x00 (R63 (b), (c)). -/
def decodePlain (r : RawCommand) (i : Instr) : Except Illegal Instr :=
  if r.rsv = 0#4 then
    if r.opd = 0#8 then .ok i else .error .operandNotZero
  else .error .reservedBits

/-- The row of DEC.SYM: rsv must be 0000 and opd[7:5] 000; the symbol is opd[4:0] (R62, R63 (b), (d)). -/
def decodeSymbol (r : RawCommand) : Except Illegal Instr :=
  if r.rsv = 0#4 then
    if r.opd.extractLsb' 5 3 = 0#3 then .ok (.decSym (r.opd.extractLsb' 0 5)) else .error .symbolTooWide
  else .error .reservedBits

/-- The opcode map of R61. -/
def decodeRaw (r : RawCommand) : Except Illegal Instr :=
  match r.op.toNat with
  | 0x1 => decodeOperand r .canon
  | 0x2 => decodeOperand r .isvalid
  | 0x3 => decodeOperand r .value
  | 0x4 => decodeOperand r .digit
  | 0x5 => decodePlain r .encInit
  | 0x6 => decodeOperand r .encByte
  | 0x7 => decodePlain r .encFlush
  | 0x8 => decodePlain r .decInit
  | 0x9 => decodeSymbol r
  | 0xA => decodeOperand r .decChar
  | 0xB => decodePlain r .decFlush
  | 0xC => decodePlain r .status
  | _ => .error .reservedOpcode

/-- Every 16-bit word is one command or illegal, whatever came before it (R65). -/
def decode (w : Word) : Except Illegal Instr :=
  decodeRaw (RawCommand.ofWord w)

/-- The fields of a command (R61). -/
def encodeRaw : Instr → RawCommand
  | .canon c => ⟨0x1#4, 0#4, c⟩
  | .isvalid c => ⟨0x2#4, 0#4, c⟩
  | .value c => ⟨0x3#4, 0#4, c⟩
  | .digit v => ⟨0x4#4, 0#4, v⟩
  | .encInit => ⟨0x5#4, 0#4, 0#8⟩
  | .encByte b => ⟨0x6#4, 0#4, b⟩
  | .encFlush => ⟨0x7#4, 0#4, 0#8⟩
  | .decInit => ⟨0x8#4, 0#4, 0#8⟩
  | .decSym s => ⟨0x9#4, 0#4, 0#3 ++ s⟩
  | .decChar c => ⟨0xA#4, 0#4, c⟩
  | .decFlush => ⟨0xB#4, 0#4, 0#8⟩
  | .status => ⟨0xC#4, 0#4, 0#8⟩

/-- The command word of a command (R60, R61). -/
def encode (i : Instr) : Word :=
  (encodeRaw i).toWord

/-- `ENC.JOB b1, ..., bn`: one ENC.BYTE per byte, then ENC.FLUSH (R69). -/
def encJob (bytes : List Byte) : List Instr :=
  bytes.map .encByte ++ [.encFlush]

/-- `DEC.JOB "c1...cd"`: DEC.INIT, one DEC.CHAR per character, then DEC.FLUSH (R69). -/
def decJob (chars : List Byte) : List Instr :=
  .decInit :: (chars.map .decChar ++ [.decFlush])

/-- A decode job of symbols: one DEC.SYM per symbol, then DEC.FLUSH (R149). -/
def symJob (syms : List Symbol) : List Instr :=
  syms.map .decSym ++ [.decFlush]

/-- The instruction read from a row of spec/opcode_table.json: every command is one word of 16 bits (R60),
bits above `nbits` are zero, and nothing longer is a command. -/
def decodeTableWord (nbits w : Nat) : Option Instr :=
  if nbits ≤ 16 then
    match decode (BitVec.ofNat 16 (w % 2 ^ nbits)) with
    | .ok i => some i
    | .error _ => none
  else none

end Sys2Proof
end

