-- ==== Sys2Proof/Config.lean ====
section
/-! DEFINITION. What is fixed for the core (00_scope.md R5, R6) and the one parameter the spec leaves OPEN to a model at command level (R6, R236, I4). -/

namespace Sys2Proof.Config

/-- Digit (symbol) width in bits: "exactly one fixed alphabet and one fixed digit width (5 bits)" (R5). -/
abbrev symbolWidth : Nat := 5

/-- Byte width in bits (R5). -/
abbrev byteWidth : Nat := 8

/-- The alphabet's size (R5). -/
abbrev alphabetSize : Nat := 32

/-- The invalid sentinel of a character result: the null character (R5, R10). -/
abbrev invalidChar : Byte := 0x00#8

/-- The invalid sentinel of a value result: -1 as s8, carried in two's complement (R5, R105). -/
abbrev invalidValue : Byte := 0xFF#8

/-- The boolean of ISVALID and the verdict of DEC.FLUSH: 0x01 true (R104, decision D20). -/
abbrev trueWord : Byte := 0x01#8

/-- The other boolean: 0x00 (R104, decision D20). -/
abbrev falseWord : Byte := 0x00#8

/-- `LATENCY`: the time the k-th command of a run takes, finite and otherwise free (R6, R236, decision D19, I4).
No definition of the model reads it, because no rule depends on it (log 5). -/
opaque latency : Nat → Nat

end Sys2Proof.Config
end

