-- ==== Sys2Proof/Machine/State.lean ====
section
/-! DEFINITION. The state of the core as plain data (10_state.md R21), the tokens it responds with (30_encoding.md R66), what the host presents to it (60_exceptions.md R209), and the state after reset (70_reset_and_hazards.md R230). -/

namespace Sys2Proof.Machine

/-- The four token kinds of a response (R66). -/
inductive Token where
  /-- `W(w)`, a result word -/
  | W (w : Byte)
  /-- `D(s, ch)`, a digit: its symbol and its alphabet character -/
  | D (s : Symbol) (ch : Byte)
  /-- `B(b)`, a decoded byte -/
  | B (b : Byte)
  /-- `ILL`, the response to an illegal word -/
  | ILL
  deriving DecidableEq, Repr

/-- What the host presents to the core: a command word (R209), or reset (R232; its place in the stream is log 6). -/
inductive HostInput where
  | command (w : Word)
  | reset
  deriving DecidableEq, Repr

/-- The core: the five registers of R21 and the two ends of its command interface (logs 1 and 2). -/
structure State where
  /-- `ENC_ACC`, u4: the encoder's pending bits (R21, R23) -/
  encAcc : BitVec 4
  /-- `ENC_CNT`, u3, legal 0..4: how many bits are pending (R21, R23) -/
  encCnt : BitVec 3
  /-- `DEC_ACC`, u7: the decoder's rolling buffer (R21, R24) -/
  decAcc : BitVec 7
  /-- `DEC_CNT`, u3, legal 0..7: how many bits it holds (R21, R24) -/
  decCnt : BitVec 3
  /-- `DEC_ERR`, u1: the sticky invalid-character flag (R21, R25) -/
  decErr : BitVec 1
  /-- the one ordered command stream, what is presented and not yet taken, head first (R49) -/
  inputs : List HostInput
  /-- the responses returned so far, in command order, oldest first (R49, R66) -/
  responses : List (List Token)
  deriving DecidableEq, Repr

/-- The two cause codes of R200. No step ends in either: the core has no trap (R204), so both outcomes are next
states. `Safety.errorOf` says which of them, if any, a command word raises (log 3). -/
inductive Fault where
  /-- `ILLEGAL_COMMAND`: raised by an illegal word, which responds `[ILL]` and changes no register (R201). Safe: the
  model goes on exactly as the rule says. -/
  | illegalCommand
  /-- `INVALID_DIGIT`: raised by DEC.CHAR with an invalid character, which sets DEC_ERR (R146). Safe: the model goes on
  exactly as the rule says. -/
  | invalidDigit
  deriving DecidableEq, Repr

/-- Why an instruction has no meaning in the model. No arm of `exec` answers it: every command is modelled. -/
inductive Refusal where
  /-- Raised by an arm of `exec` whose instruction has no meaning yet (none is left). Safe: nothing can be proved of it. -/
  | notModelled (mnemonic : String)
  deriving DecidableEq, Repr

/-- After reset every register is zero (R230). Nothing has been presented and nothing has been answered (logs 1, 2). -/
def State.reset : State :=
  { encAcc := 0#4
    encCnt := 0#3
    decAcc := 0#7
    decCnt := 0#3
    decErr := 0#1
    inputs := []
    responses := [] }

end Sys2Proof.Machine
end

