-- ==== Sys2Proof/Machine/Tables.lean ====
section
/-! DEFINITION. The three constant tables of the core (10_state.md R28), with the content of 40_lut.md R101 and R102, and the reference lookups CANON, VALID, VAL and DIGIT (00_scope.md R9). -/

namespace Sys2Proof.Machine

/-- `ALPHABET[0..31]`, entry by entry (R102). -/
def alphabetTable : List Byte :=
  [0x30#8, 0x31#8, 0x32#8, 0x33#8, 0x34#8, 0x35#8, 0x36#8, 0x37#8] ++
  [0x38#8, 0x39#8, 0x41#8, 0x42#8, 0x43#8, 0x44#8, 0x45#8, 0x46#8] ++
  [0x47#8, 0x48#8, 0x4A#8, 0x4B#8, 0x4D#8, 0x4E#8, 0x50#8, 0x51#8] ++
  [0x52#8, 0x53#8, 0x54#8, 0x56#8, 0x57#8, 0x58#8, 0x59#8, 0x5A#8]

/-- `ALPHABET[s]`; a symbol is below 32, so the default is never read. -/
def alphabet (s : Symbol) : Byte :=
  alphabetTable.getD s.toNat Config.invalidChar

/-- R101's rows of the decimal digits: (character, `CANON_ROM`, `VALUE_ROM`). -/
def digitRows : List (Byte × Byte × Byte) :=
  [(0x30#8, 0x30#8, 0x00#8), (0x31#8, 0x31#8, 0x01#8), (0x32#8, 0x32#8, 0x02#8),
   (0x33#8, 0x33#8, 0x03#8), (0x34#8, 0x34#8, 0x04#8), (0x35#8, 0x35#8, 0x05#8),
   (0x36#8, 0x36#8, 0x06#8), (0x37#8, 0x37#8, 0x07#8), (0x38#8, 0x38#8, 0x08#8),
   (0x39#8, 0x39#8, 0x09#8)]

/-- R101's rows of the capital letters, `I`, `L` and `O` aliases among them; `U` has none. -/
def upperRows : List (Byte × Byte × Byte) :=
  [(0x41#8, 0x41#8, 0x0A#8), (0x42#8, 0x42#8, 0x0B#8), (0x43#8, 0x43#8, 0x0C#8),
   (0x44#8, 0x44#8, 0x0D#8), (0x45#8, 0x45#8, 0x0E#8), (0x46#8, 0x46#8, 0x0F#8),
   (0x47#8, 0x47#8, 0x10#8), (0x48#8, 0x48#8, 0x11#8), (0x49#8, 0x31#8, 0x01#8),
   (0x4A#8, 0x4A#8, 0x12#8), (0x4B#8, 0x4B#8, 0x13#8), (0x4C#8, 0x31#8, 0x01#8),
   (0x4D#8, 0x4D#8, 0x14#8), (0x4E#8, 0x4E#8, 0x15#8), (0x4F#8, 0x30#8, 0x00#8),
   (0x50#8, 0x50#8, 0x16#8), (0x51#8, 0x51#8, 0x17#8), (0x52#8, 0x52#8, 0x18#8),
   (0x53#8, 0x53#8, 0x19#8), (0x54#8, 0x54#8, 0x1A#8), (0x56#8, 0x56#8, 0x1B#8),
   (0x57#8, 0x57#8, 0x1C#8), (0x58#8, 0x58#8, 0x1D#8), (0x59#8, 0x59#8, 0x1E#8),
   (0x5A#8, 0x5A#8, 0x1F#8)]

/-- R101's rows of the small letters, all aliases; `u` has none. -/
def lowerRows : List (Byte × Byte × Byte) :=
  [(0x61#8, 0x41#8, 0x0A#8), (0x62#8, 0x42#8, 0x0B#8), (0x63#8, 0x43#8, 0x0C#8),
   (0x64#8, 0x44#8, 0x0D#8), (0x65#8, 0x45#8, 0x0E#8), (0x66#8, 0x46#8, 0x0F#8),
   (0x67#8, 0x47#8, 0x10#8), (0x68#8, 0x48#8, 0x11#8), (0x69#8, 0x31#8, 0x01#8),
   (0x6A#8, 0x4A#8, 0x12#8), (0x6B#8, 0x4B#8, 0x13#8), (0x6C#8, 0x31#8, 0x01#8),
   (0x6D#8, 0x4D#8, 0x14#8), (0x6E#8, 0x4E#8, 0x15#8), (0x6F#8, 0x30#8, 0x00#8),
   (0x70#8, 0x50#8, 0x16#8), (0x71#8, 0x51#8, 0x17#8), (0x72#8, 0x52#8, 0x18#8),
   (0x73#8, 0x53#8, 0x19#8), (0x74#8, 0x54#8, 0x1A#8), (0x76#8, 0x56#8, 0x1B#8),
   (0x77#8, 0x57#8, 0x1C#8), (0x78#8, 0x58#8, 0x1D#8), (0x79#8, 0x59#8, 0x1E#8),
   (0x7A#8, 0x5A#8, 0x1F#8)]

/-- The 60 valid characters of R101. -/
def lutRows : List (Byte × Byte × Byte) :=
  digitRows ++ upperRows ++ lowerRows

/-- The row of a character: its canonical form and its value; the other 196 have none (R101). -/
def lutRow (c : Byte) : Option (Byte × Byte) :=
  lutRows.lookup c

/-- `CANON_ROM[c]`: the canonical digit, or the null sentinel (R101). The reference function CANON (R9). -/
def canonRom (c : Byte) : Byte :=
  match lutRow c with
  | some (canon, _) => canon
  | none => Config.invalidChar

/-- `VALUE_ROM[c]`, the s8 as its two's-complement bits: 0..31, or -1 (R101, R105). The reference function VAL (R9). -/
def valueRom (c : Byte) : Byte :=
  match lutRow c with
  | some (_, v) => v
  | none => Config.invalidValue

/-- The reference function VALID: the canonical form is not the sentinel (R9, R104). -/
def charValid (c : Byte) : Bool :=
  canonRom c != Config.invalidChar

/-- The reference function DIGIT: the alphabet character at a position below 32, else the sentinel (R9, R106). -/
def digitFor (v : Byte) : Byte :=
  if v.toNat < Config.alphabetSize then alphabetTable.getD v.toNat Config.invalidChar else Config.invalidChar

end Sys2Proof.Machine
end

