-- ==== Sys2Proof/Machine/Operands.lean ====
section
/-! DEFINITION. Operand forms: how an operand joins an engine's pending bits, and the bit fields cut from the result (00_scope.md R7, 30_encoding.md R62, 41_encoder.md R124, R125, 42_decoder.md R144, R147). -/

namespace Sys2Proof.Machine

/-- `v[lo+n-1 : lo]`, a field of n bits (R7). -/
def slice {m : Nat} (lo n : Nat) (v : BitVec m) : BitVec n :=
  v.extractLsb' lo n

/-- `v[k-1 : 0]` in place, all other bits zero; zero where k is 0 (R124, R144). -/
def lowBits {m : Nat} (k : Nat) (v : BitVec m) : BitVec m :=
  v &&& BitVec.ofNat m (2 ^ k - 1)

/-- `a : u12 = (zext_12(ENC_ACC) << 8) | zext_12(b)`: the pending bits, then the byte (R124). -/
def encWindow (acc : BitVec 4) (b : Byte) : BitVec 12 :=
  (acc.setWidth 12 <<< Config.byteWidth) ||| b.setWidth 12

/-- `a : u12 = (zext_12(DEC_ACC) << 5) | zext_12(s)`: the pending bits, then the symbol (R144). -/
def decWindow (acc : BitVec 7) (s : Symbol) : BitVec 12 :=
  (acc.setWidth 12 <<< Config.symbolWidth) ||| s.setWidth 12

/-- The last digit of an encode job: `(zext_5(ENC_ACC) << (5 - ENC_CNT))[4:0]`, the pending bits high (R125, C2). -/
def padSymbol (acc : BitVec 4) (cnt : BitVec 3) : Symbol :=
  acc.setWidth 5 <<< (Config.symbolWidth - cnt.toNat)

/-- The last byte of a decode job: `(zext_8(DEC_ACC) << (8 - DEC_CNT))[7:0]`, the pending bits high (R147, C3). -/
def padByte (acc : BitVec 7) (cnt : BitVec 3) : Byte :=
  acc.setWidth 8 <<< (Config.byteWidth - cnt.toNat)

/-- `VALUE_ROM[c][4:0]`, the symbol a valid character carries (R145). -/
def charSymbol (c : Byte) : Symbol :=
  slice 0 5 (valueRom c)

/-- The digit token of a symbol: `D(s, ALPHABET[s])` (30_encoding.md R66). -/
def digitToken (s : Symbol) : Token :=
  .D s (alphabet s)

end Sys2Proof.Machine
end

