-- ==== Sys2Proof/Machine/Flags.lean ====
section
/-! DEFINITION. The one flag, DEC_ERR (10_state.md R25), and the words computed from it: the verdict of DEC.FLUSH (42_decoder.md R147, R148) and the status word (10_state.md R26). -/

namespace Sys2Proof.Machine

/-- What DEC.CHAR writes to DEC_ERR for an invalid character (R146). -/
def errSet : BitVec 1 := 1#1

/-- What DEC.INIT, DEC.FLUSH and reset write to DEC_ERR (R143, R147, R230). -/
def errClear : BitVec 1 := 0#1

/-- The verdict word `zext_8(DEC_ERR)` (R147, R148). -/
def verdictWord (err : BitVec 1) : Byte :=
  err.setWidth 8

/-- The status word `(ENC_CNT << 4) | (DEC_ERR << 3) | DEC_CNT` (R26, 43_status.md R170). -/
def statusWord (encCnt : BitVec 3) (decErr : BitVec 1) (decCnt : BitVec 3) : Byte :=
  (encCnt.setWidth 8 <<< 4) ||| (decErr.setWidth 8 <<< 3) ||| decCnt.setWidth 8

/-- ISVALID's boolean (R104, decision D20). -/
def boolWord (b : Bool) : Byte :=
  if b then Config.trueWord else Config.falseWord

end Sys2Proof.Machine
end

