-- ==== Sys2Proof/Machine/Ops.lean ====
section
/-! DEFINITION. The shared operations over State: responding, writing an engine's registers, taking the next input, an illegal word (60_exceptions.md R201), reset (70_reset_and_hazards.md R232), and the two packing steps (41_encoder.md R124, 42_decoder.md R144). -/

namespace Sys2Proof.Machine

/-- The whole response of the current command takes its place after those of all earlier commands (20_memory.md R49). -/
def State.respond (s : State) (r : List Token) : State :=
  { s with responses := s.responses ++ [r] }

/-- `ENC_ACC <- acc; ENC_CNT <- cnt`. -/
def State.writeEncoder (s : State) (acc : BitVec 4) (cnt : BitVec 3) : State :=
  { s with encAcc := acc, encCnt := cnt }

/-- `DEC_ACC <- acc; DEC_CNT <- cnt`. -/
def State.writeDecoder (s : State) (acc : BitVec 7) (cnt : BitVec 3) : State :=
  { s with decAcc := acc, decCnt := cnt }

/-- `DEC_ERR <- e`. -/
def State.writeDecErr (s : State) (e : BitVec 1) : State :=
  { s with decErr := e }

/-- The core takes the next input off the stream, or finds none (R49, R209). -/
def fetch (s : State) : Option (HostInput × State) :=
  match s.inputs with
  | [] => none
  | x :: rest => some (x, { s with inputs := rest })

/-- Illegal: the whole response is `[ILL]` and no register is read or written (R201; `raise Illegal()` of R8).
The core has no trap (R204), so this is all there is to taking an exception. -/
def raiseIllegal (s : State) : State :=
  s.respond [.ILL]

/-- Reset: every register zero, no token (R230, R232). -/
def applyReset (s : State) : State :=
  ((s.writeEncoder 0#4 0#3).writeDecoder 0#7 0#3).writeDecErr errClear

/-- No input is presented: nothing changes (log 1). -/
def idle (s : State) : State := s

/-- The complete 5-bit groups among the low k bits of a, first the highest; k is 8 to 12 (R124). -/
def encGroups (a : BitVec 12) (k : Nat) : List Symbol :=
  if k - 5 ≥ 5 then [slice (k - 5) 5 a, slice (k - 10) 5 a] else [slice (k - 5) 5 a]

/-- How many of k bits are left when the complete groups are gone: 0 to 4 (R124). -/
def encLeft (k : Nat) : Nat :=
  if k - 5 ≥ 5 then k - 10 else k - 5

/-- The pseudocode of R124: append a byte to the encode job, emit every complete group. -/
def appendByte (b : Byte) (s : State) : State :=
  let a := encWindow s.encAcc b
  let k := s.encCnt.toNat + 8
  let left := encLeft k
  (s.writeEncoder ((lowBits left a).setWidth 4) (BitVec.ofNat 3 left)).respond ((encGroups a k).map digitToken)

/-- The byte tokens a decode job emits when k bits are available: one, of the highest 8, from k = 8 on (R144). -/
def decBytes (a : BitVec 12) (k : Nat) : List Token :=
  if k ≥ 8 then [.B (slice (k - 8) 8 a)] else []

/-- How many of k bits are left then: 0 to 7 (R144). -/
def decLeft (k : Nat) : Nat :=
  if k ≥ 8 then k - 8 else k

/-- The pseudocode of R144: append a symbol to the decode job, emit a byte when 8 bits are available. DEC.SYM and
DEC.CHAR share it (R145). -/
def appendSymbol (x : Symbol) (s : State) : State :=
  let a := decWindow s.decAcc x
  let k := s.decCnt.toNat + 5
  let left := decLeft k
  (s.writeDecoder ((lowBits left a).setWidth 7) (BitVec.ofNat 3 left)).respond (decBytes a k)

end Sys2Proof.Machine
end

