-- ==== Sys2Proof/Machine/Decoder.lean ====
section
/-! DEFINITION. The four commands of base32_decoder (42_decoder.md R143 to R148). -/

namespace Sys2Proof.Machine

/-- DEC.INIT: clears the decoder and its error flag, emits nothing (R143). -/
def execDecInit (s : State) : Host.Outcome State Fault Refusal :=
  .next (((s.writeDecoder 0#7 0#3).writeDecErr errClear).respond [])

/-- DEC.SYM: appends a symbol (R144). -/
def execDecSym (x : Symbol) (s : State) : Host.Outcome State Fault Refusal :=
  .next (appendSymbol x s)

/-- DEC.CHAR: an invalid character sets DEC_ERR and changes nothing else; a valid one is appended as its value
(R145, R146, R203). -/
def execDecChar (c : Byte) (s : State) : Host.Outcome State Fault Refusal :=
  if charValid c then .next (appendSymbol (charSymbol c) s) else .next ((s.writeDecErr errSet).respond [])

/-- The byte token DEC.FLUSH emits: the padded byte if any bits are pending (R147, C1). -/
def flushBytes (s : State) : List Token :=
  if s.decCnt.toNat > 0 then [.B (padByte s.decAcc s.decCnt)] else []

/-- DEC.FLUSH: emits the padded last byte if any bits are pending, then the verdict; clears the decoder and, the flag
now reported, DEC_ERR (R147, R148). -/
def execDecFlush (s : State) : Host.Outcome State Fault Refusal :=
  .next (((s.writeDecoder 0#7 0#3).writeDecErr errClear).respond (flushBytes s ++ [.W (verdictWord s.decErr)]))

end Sys2Proof.Machine
end

