-- ==== Sys2Proof/Machine/Encoder.lean ====
section
/-! DEFINITION. The three commands of base32_encoder (41_encoder.md R123 to R125). -/

namespace Sys2Proof.Machine

/-- ENC.INIT: clears the encoder, emits nothing (R123). -/
def execEncInit (s : State) : Host.Outcome State Fault Refusal :=
  .next ((s.writeEncoder 0#4 0#3).respond [])

/-- ENC.BYTE: appends a byte, emits every complete group (R124). -/
def execEncByte (b : Byte) (s : State) : Host.Outcome State Fault Refusal :=
  .next (appendByte b s)

/-- The token ENC.FLUSH emits: the padded digit if any bits are pending (R125). -/
def flushDigits (s : State) : List Token :=
  if s.encCnt.toNat > 0 then [digitToken (padSymbol s.encAcc s.encCnt)] else []

/-- ENC.FLUSH: emits the padded last digit if any bits are pending, then clears the encoder (R125). -/
def execEncFlush (s : State) : Host.Outcome State Fault Refusal :=
  .next ((s.writeEncoder 0#4 0#3).respond (flushDigits s))

end Sys2Proof.Machine
end

