-- ==== Sys2Proof/Machine/Lut.lean ====
section
/-! DEFINITION. The four lookup commands of character_canonicalization_lut (40_lut.md R103 to R106). None reads or writes a register (10_state.md R31). -/

namespace Sys2Proof.Machine

/-- CANON: `emit W(CANON_ROM[c])` (R103). -/
def execCanon (c : Byte) (s : State) : Host.Outcome State Fault Refusal :=
  .next (s.respond [.W (canonRom c)])

/-- ISVALID: `W(0x01)` if `CANON_ROM[c] != 0x00`, else `W(0x00)` (R104). -/
def execIsvalid (c : Byte) (s : State) : Host.Outcome State Fault Refusal :=
  .next (s.respond [.W (boolWord (charValid c))])

/-- VALUE: `emit W(VALUE_ROM[c])` (R105). -/
def execValue (c : Byte) (s : State) : Host.Outcome State Fault Refusal :=
  .next (s.respond [.W (valueRom c)])

/-- DIGIT: `W(ALPHABET[v])` if `v < 32`, else `W(0x00)` (R106). -/
def execDigit (v : Byte) (s : State) : Host.Outcome State Fault Refusal :=
  .next (s.respond [.W (digitFor v)])

end Sys2Proof.Machine
end

