-- ==== Sys2Proof/Machine/Status.lean ====
section
/-! DEFINITION. The status command (43_status.md R170). -/

namespace Sys2Proof.Machine

/-- STATUS: emits the status word, writes nothing (R170, 10_state.md R26). -/
def execStatus (s : State) : Host.Outcome State Fault Refusal :=
  .next (s.respond [.W (statusWord s.encCnt s.decErr s.decCnt)])

end Sys2Proof.Machine
end

