-- ==== Sys2Proof/Machine/Dispatch.lean ====
section
/-! DEFINITION. One arm per command of 30_encoding.md R61, each a call of its meaning. -/

namespace Sys2Proof.Machine

def exec (i : Instr) (s : State) : Host.Outcome State Fault Refusal :=
  match i with
  | .canon c => Sys2Proof.Machine.execCanon c s
  | .isvalid c => Sys2Proof.Machine.execIsvalid c s
  | .value c => Sys2Proof.Machine.execValue c s
  | .digit v => Sys2Proof.Machine.execDigit v s
  | .encInit => Sys2Proof.Machine.execEncInit s
  | .encByte b => Sys2Proof.Machine.execEncByte b s
  | .encFlush => Sys2Proof.Machine.execEncFlush s
  | .decInit => Sys2Proof.Machine.execDecInit s
  | .decSym x => Sys2Proof.Machine.execDecSym x s
  | .decChar c => Sys2Proof.Machine.execDecChar c s
  | .decFlush => Sys2Proof.Machine.execDecFlush s
  | .status => Sys2Proof.Machine.execStatus s

end Sys2Proof.Machine
end

