-- ==== Sys2Proof/Machine/Step.lean ====
section
/-! DEFINITION. One step of the core: it takes the next input of the one ordered stream and performs it whole (20_memory.md R47, R49). -/

namespace Sys2Proof.Machine

/-- Take the next input. A legal word is performed by its command's rule; an illegal one responds `[ILL]` before
anything else of it is looked at (60_exceptions.md R201, R203); reset clears the registers (R232); with no input the
core idles (log 1). -/
def step (s : State) : Host.Outcome State Fault Refusal :=
  match fetch s with
  | none => .next (idle s)
  | some (.reset, s') => .next (applyReset s')
  | some (.command w, s') =>
    match decode w with
    | .ok i => exec i s'
    | .error _ => .next (raiseIllegal s')

/-- The state in which the very next step runs the word of a table row: the word is presented at the head of the
stream, and nothing else changes (log 1). -/
def State.withFetchWord (s : State) (nbits w : Nat) : State :=
  { s with inputs := .command (BitVec.ofNat 16 (w % 2 ^ nbits)) :: s.inputs }

end Sys2Proof.Machine
end

