-- ==== Sys2Proof/Machine/Assembler.lean ====
section
/-! DEFINITION. The assembly text of one line (30_encoding.md R68): a mnemonic, for commands with an operand one space and the operand, and a comment from `;`. Text is a list of characters. What R68 leaves open is log 9. -/

namespace Sys2Proof.Machine

/-- What a line of assembly text is. -/
inductive AsmLine where
  /-- nothing, or a comment only -/
  | blank
  /-- one command -/
  | command (i : Instr)
  /-- not a line of R68 -/
  | malformed
  deriving DecidableEq, Repr

/-- The character `'` around a quoted character operand. -/
def asmQuote : Char := Char.ofNat 39

/-- The rest of a line is spaces and perhaps a comment. -/
def asmRestBlank : List Char → Bool
  | [] => true
  | ' ' :: t => asmRestBlank t
  | ';' :: _ => true
  | _ :: _ => false

/-- A line without its leading spaces. -/
def asmSkipSpaces : List Char → List Char
  | ' ' :: t => asmSkipSpaces t
  | t => t

/-- The longest run without a space or `;`, and what follows it. -/
def asmToken : List Char → List Char × List Char
  | [] => ([], [])
  | c :: t =>
    if c = ' ' || c = ';' then ([], c :: t)
    else ((c :: (asmToken t).1), (asmToken t).2)

/-- The value of a digit character, capital or small. -/
def asmDigit (c : Char) : Option Nat :=
  let n := c.toNat
  if 48 ≤ n ∧ n ≤ 57 then some (n - 48)
  else if 65 ≤ n ∧ n ≤ 70 then some (n - 55)
  else if 97 ≤ n ∧ n ≤ 102 then some (n - 87)
  else none

/-- Digits read in a base, continuing a value. -/
def asmDigits (base : Nat) : Nat → List Char → Option Nat
  | n, [] => some n
  | n, c :: t =>
    match asmDigit c with
    | some d => if d < base then asmDigits base (base * n + d) t else none
    | none => none

/-- A number: `0xF8`, `0b11111000` or `31` (R68). -/
def asmNumber : List Char → Option Nat
  | '0' :: 'x' :: c :: t => asmDigits 16 0 (c :: t)
  | '0' :: 'b' :: c :: t => asmDigits 2 0 (c :: t)
  | c :: t => asmDigits 10 0 (c :: t)
  | [] => none

/-- A number operand below 2^w and nothing after it. -/
def asmNumberOperand (w : Nat) (f : BitVec w → Instr) (text : List Char) : AsmLine :=
  match asmNumber (asmToken text).1 with
  | some n => if n < 2 ^ w && asmRestBlank (asmToken text).2 then .command (f (BitVec.ofNat w n)) else .malformed
  | none => .malformed

/-- A character operand: a quoted ASCII character, which stands for its code point, or a number (R68, R100). -/
def asmCharOperand (f : Byte → Instr) : List Char → AsmLine
  | q :: c :: r :: t =>
    if q = asmQuote then
      if r = asmQuote && decide (c.toNat < 128) && asmRestBlank t then .command (f (BitVec.ofNat 8 c.toNat)) else .malformed
    else asmNumberOperand 8 f (q :: c :: r :: t)
  | t => asmNumberOperand 8 f t

/-- The operand after the mnemonic: one space, then the operand. -/
def asmAfterSpace (parse : List Char → AsmLine) : List Char → AsmLine
  | ' ' :: t => parse t
  | _ => .malformed

/-- A command without an operand: nothing after the mnemonic. -/
def asmPlain (i : Instr) (rest : List Char) : AsmLine :=
  if asmRestBlank rest then .command i else .malformed

/-- The command a mnemonic of R61 begins, given the text after it. -/
def asmCommand (mnemonic rest : List Char) : AsmLine :=
  if mnemonic = ['C', 'A', 'N', 'O', 'N'] then asmAfterSpace (asmCharOperand .canon) rest
  else if mnemonic = ['I', 'S', 'V', 'A', 'L', 'I', 'D'] then asmAfterSpace (asmCharOperand .isvalid) rest
  else if mnemonic = ['V', 'A', 'L', 'U', 'E'] then asmAfterSpace (asmCharOperand .value) rest
  else if mnemonic = ['D', 'I', 'G', 'I', 'T'] then asmAfterSpace (asmNumberOperand 8 .digit) rest
  else if mnemonic = ['E', 'N', 'C', '.', 'I', 'N', 'I', 'T'] then asmPlain .encInit rest
  else if mnemonic = ['E', 'N', 'C', '.', 'B', 'Y', 'T', 'E'] then asmAfterSpace (asmNumberOperand 8 .encByte) rest
  else if mnemonic = ['E', 'N', 'C', '.', 'F', 'L', 'U', 'S', 'H'] then asmPlain .encFlush rest
  else if mnemonic = ['D', 'E', 'C', '.', 'I', 'N', 'I', 'T'] then asmPlain .decInit rest
  else if mnemonic = ['D', 'E', 'C', '.', 'S', 'Y', 'M'] then asmAfterSpace (asmNumberOperand 5 .decSym) rest
  else if mnemonic = ['D', 'E', 'C', '.', 'C', 'H', 'A', 'R'] then asmAfterSpace (asmCharOperand .decChar) rest
  else if mnemonic = ['D', 'E', 'C', '.', 'F', 'L', 'U', 'S', 'H'] then asmPlain .decFlush rest
  else if mnemonic = ['S', 'T', 'A', 'T', 'U', 'S'] then asmPlain .status rest
  else .malformed

/-- One line of assembly text (R68). -/
def assembleLine (line : List Char) : AsmLine :=
  let text := asmSkipSpaces line
  if asmRestBlank text then .blank
  else asmCommand (asmToken text).1 (asmToken text).2

/-- The command word of a line, where it holds one command (R68). -/
def assembledWord (line : List Char) : Option Word :=
  match assembleLine line with
  | .command i => some (encode i)
  | .blank => none
  | .malformed => none

end Sys2Proof.Machine
end

