-- ==== Sys2Proof/Machine/Reference.lean ====
section
/-! DEFINITION. The source's bulk operations, which the commands perform piece by piece: ENCODE (41_encoder.md R120, R121) and DECODE (42_decoder.md R140, R141), on bit streams numbered from the first bit. -/

namespace Sys2Proof.Machine

/-- A value's bits, most significant first (00_scope.md R7). -/
def bitsOf {w : Nat} (v : BitVec w) : List Bool :=
  (List.range w).map v.getMsbD

/-- The pending bits `v[k-1:0]` of an engine, the earliest, which is the most significant, first (10_state.md R23, R24). -/
def pendingBits {w : Nat} (k : Nat) (v : BitVec w) : List Bool :=
  (List.range k).map fun i => v.getLsbD (k - 1 - i)

/-- The value of w bits whose first is the most significant. -/
def ofBits (w : Nat) (bs : List Bool) : BitVec w :=
  BitVec.ofNat w (bs.foldl (fun n b => 2 * n + b.toNat) 0)

/-- The first m groups of w bits of a stream. -/
def regroup (w m : Nat) (stream : List Bool) : List (BitVec w) :=
  (List.range m).map fun j => ofBits w ((stream.drop (w * j)).take w)

/-- `ENC_LEN(n) = ceil(8n/5)` (R121). -/
def encodedLength (n : Nat) : Nat := (8 * n + 4) / 5

/-- `DECODED_SIZE(d) = ceil(5d/8)` (R141). -/
def decodedSize (d : Nat) : Nat := (5 * d + 7) / 8

/-- `ENCODE(bytes)`: the byte stream, zero-filled at its end, in groups of 5 bits (R120, R122). -/
def encodeBytes (bytes : List Byte) : List Symbol :=
  let d := encodedLength bytes.length
  regroup 5 d (bytes.flatMap bitsOf ++ List.replicate (5 * d - 8 * bytes.length) false)

/-- `DECODE(syms)`: the symbol stream, zero-filled at its end, in groups of 8 bits (R140). -/
def decodeSymbols (syms : List Symbol) : List Byte :=
  let m := decodedSize syms.length
  regroup 8 m (syms.flatMap bitsOf ++ List.replicate (8 * m - 5 * syms.length) false)

end Sys2Proof.Machine
end

