-- ==== Sys2Proof/Safety.lean ====
section
/-! DEFINITION. The terms the claims use: legal register values (10_state.md R21), error outcomes (60_exceptions.md R200), runs over words the host presents, and what is read out of responses. -/

namespace Sys2Proof.Machine

/-- The legal register values of R21: `ENC_CNT <= 4`, `ENC_ACC < 2^ENC_CNT`, `DEC_ACC < 2^DEC_CNT` (R23, R24). -/
abbrev State.Legal (s : State) : Prop :=
  s.encCnt.toNat ≤ 4 ∧ s.encAcc.toNat < 2 ^ s.encCnt.toNat ∧ s.decAcc.toNat < 2 ^ s.decCnt.toNat

/-- The error outcome of a command word, at most one, illegality decided first (R200, R203). A safe run presents
no word that has one. -/
def errorOf (w : Word) : Option Fault :=
  match decode w with
  | .error _ => some .illegalCommand
  | .ok (.decChar c) => if charValid c then none else some .invalidDigit
  | .ok _ => none

/-- The sub-block a command addresses (R11, R61). -/
inductive SubBlock where
  | lut
  | encoder
  | decoder
  | statusRead
  deriving DecidableEq, Repr

/-- The opcode map's second column (R61); DEC.CHAR writes the decoder. -/
def subBlock : Instr → SubBlock
  | .canon _ => .lut
  | .isvalid _ => .lut
  | .value _ => .lut
  | .digit _ => .lut
  | .encInit => .encoder
  | .encByte _ => .encoder
  | .encFlush => .encoder
  | .decInit => .decoder
  | .decSym _ => .decoder
  | .decChar _ => .decoder
  | .decFlush => .decoder
  | .status => .statusRead

/-- The commands among a list of words that address one sub-block, in order; illegal words are none. -/
def commandsOf (b : SubBlock) (ws : List Word) : List Instr :=
  (ws.filterMap fun w => (decode w).toOption).filter fun i => subBlock i == b

/-- The symbol a command appends to a decode job: DEC.SYM's own, or a valid DEC.CHAR's value (R144, R145). -/
def carriedSymbol : Instr → Option Symbol
  | .decSym x => some x
  | .decChar c => if charValid c then some (charSymbol c) else none
  | _ => none

/-- The symbols of the digit tokens, in order. -/
def symbolsOf (ts : List Token) : List Symbol :=
  ts.filterMap fun t => match t with
    | .D x _ => some x
    | _ => none

/-- The bytes of the byte tokens, in order. -/
def bytesOf (ts : List Token) : List Byte :=
  ts.filterMap fun t => match t with
    | .B b => some b
    | _ => none

/-- k steps, one after another, stopping where one does not answer a next state. -/
def run : Nat → State → Host.Outcome State Fault Refusal
  | 0, s => .next s
  | k + 1, s =>
    match step s with
    | .next t => run k t
    | .fault r => .fault r
    | .refused r => .refused r

/-- The host presents these words, and the core performs them all (R49, R209). -/
def runWords (ws : List Word) (s : State) : Host.Outcome State Fault Refusal :=
  run ws.length { s with inputs := ws.map .command }

/-- The host presents these commands, and the core performs them all. -/
def runCommands (is : List Instr) (s : State) : Host.Outcome State Fault Refusal :=
  runWords (is.map encode) s

/-- A row of the opcode map whose operand is all of opd: with rsv = 0000 every operand decodes to its command, and
with any other rsv the word is illegal (R61, R63 (b)). -/
def OperandRow (op : BitVec 4) (f : Byte → Instr) : Prop :=
  (∀ d : Byte, decode (op ++ 0#4 ++ d) = .ok (f d)) ∧
  ∀ (rsv : BitVec 4) (d : Byte), rsv ≠ 0#4 → ∃ e, decode (op ++ rsv ++ d) = .error e

/-- A row of the opcode map without an operand: one legal word, and any other rsv or opd is illegal (R61, R63 (b), (c)). -/
def PlainRow (op : BitVec 4) (i : Instr) : Prop :=
  decode (op ++ 0#4 ++ 0#8) = .ok i ∧
  ∀ (rsv : BitVec 4) (d : Byte), rsv ≠ 0#4 ∨ d ≠ 0#8 → ∃ e, decode (op ++ rsv ++ d) = .error e

end Sys2Proof.Machine
end

