-- ==== Sys2Proof/Certificates/Slice0/Obligations.lean ====
section
/-! DEFINITION. The statements about the model, for the provers. Each cites the rules of spec/ it rests on. -/

open Sys2Proof Sys2Proof.Machine

/-! ### Encoding -/

/-- The words of R68's examples, and two of R103 and R106, written out from the format of R60. -/
def Obligations.SampleWordsDecode : Prop :=
  decode 0x60F8#16 = .ok (.encByte 0xF8#8) ∧ decode 0xA07A#16 = .ok (.decChar 0x7A#8) ∧
  decode 0x901F#16 = .ok (.decSym 31#5) ∧ decode 0xC000#16 = .ok .status ∧
  decode 0x106F#16 = .ok (.canon 0x6F#8) ∧ decode 0x4012#16 = .ok (.digit 18#8)

/-- The four lines R68 gives as examples assemble to the words it gives. -/
def Obligations.AssemblyExamples : Prop :=
  assembledWord ['E', 'N', 'C', '.', 'B', 'Y', 'T', 'E', ' ', '0', 'x', 'F', '8'] = some 0x60F8#16 ∧
  assembledWord ['D', 'E', 'C', '.', 'C', 'H', 'A', 'R', ' ', asmQuote, 'z', asmQuote] = some 0xA07A#16 ∧
  assembledWord ['D', 'E', 'C', '.', 'S', 'Y', 'M', ' ', '3', '1'] = some 0x901F#16 ∧
  assembledWord ['S', 'T', 'A', 'T', 'U', 'S'] = some 0xC000#16

/-- Decoding and encoding are inverse: no bit of a legal word is dropped, and no two words mean one command
(R60, R61, R65). -/
def Obligations.DecodeAndEncodeAgree : Prop :=
  ∀ (w : Word) (i : Instr), decode w = .ok i ↔ encode i = w

/-- The opcode map of R61 by match and mask, as spec/opcode_table.json gives them, and its four reserved opcodes. -/
def Obligations.OpcodeMapByMatchAndMask : Prop :=
  (∀ w : Word, w &&& 0xFF00#16 = 0x1000#16 → decode w = .ok (.canon (w.extractLsb' 0 8))) ∧
  (∀ w : Word, w &&& 0xFF00#16 = 0x2000#16 → decode w = .ok (.isvalid (w.extractLsb' 0 8))) ∧
  (∀ w : Word, w &&& 0xFF00#16 = 0x3000#16 → decode w = .ok (.value (w.extractLsb' 0 8))) ∧
  (∀ w : Word, w &&& 0xFF00#16 = 0x4000#16 → decode w = .ok (.digit (w.extractLsb' 0 8))) ∧
  decode 0x5000#16 = .ok .encInit ∧
  (∀ w : Word, w &&& 0xFF00#16 = 0x6000#16 → decode w = .ok (.encByte (w.extractLsb' 0 8))) ∧
  decode 0x7000#16 = .ok .encFlush ∧
  decode 0x8000#16 = .ok .decInit ∧
  (∀ w : Word, w &&& 0xFFE0#16 = 0x9000#16 → decode w = .ok (.decSym (w.extractLsb' 0 5))) ∧
  (∀ w : Word, w &&& 0xFF00#16 = 0xA000#16 → decode w = .ok (.decChar (w.extractLsb' 0 8))) ∧
  decode 0xB000#16 = .ok .decFlush ∧
  decode 0xC000#16 = .ok .status ∧
  ∀ w : Word, w.extractLsb' 12 4 ∈ [0x0#4, 0xD#4, 0xE#4, 0xF#4] → ∃ e, decode w = .error e

/-- A word is illegal exactly in the cases (a) to (d) of R63; then its response is `[ILL]`, no register changes, and
the next command is taken normally (R201). -/
def Obligations.IllegalWordsAnswerIllAndChangeNothing : Prop :=
  ∀ w : Word,
    ((∃ e, decode w = .error e) ↔
      (w.extractLsb' 12 4 ∈ [0x0#4, 0xD#4, 0xE#4, 0xF#4] ∨
       w.extractLsb' 8 4 ≠ 0#4 ∨
       (w.extractLsb' 12 4 ∈ [0x5#4, 0x7#4, 0x8#4, 0xB#4, 0xC#4] ∧ w.extractLsb' 0 8 ≠ 0#8) ∨
       (w.extractLsb' 12 4 = 0x9#4 ∧ w.extractLsb' 5 3 ≠ 0#3))) ∧
    ∀ (s : State) (rest : List HostInput) (e : Illegal), s.inputs = .command w :: rest → decode w = .error e →
      step s = .next { s with inputs := rest, responses := s.responses ++ [[.ILL]] }

/-- Of the 65536 words 1573 are legal, and the all-zero word is not (R64). -/
def Obligations.LegalWordCount : Prop :=
  ((List.range 65536).countP fun n => (decode (BitVec.ofNat 16 n)).toOption.isSome) = 1573 ∧
  ∃ e, decode 0x0000#16 = .error e

/-! ### The step -/

/-- A step whose next input is a legal word is `exec` of its command, the word taken off the stream (R49, R209). -/
def Obligations.StepRunsTheDecodedCommand : Prop :=
  ∀ (s : State) (w : Word) (rest : List HostInput) (i : Instr),
    s.inputs = .command w :: rest → decode w = .ok i → step s = exec i { s with inputs := rest }

/-- With the word of a table row at the head of the stream, the next step runs that row's instruction. The form of
the stream is the model's choice (log 1). -/
def Obligations.FetchWordRunsTheTableInstruction : Prop :=
  ∀ (s : State) (nbits w : Nat) (i : Instr),
    decodeTableWord nbits w = some i → step (s.withFetchWord nbits w) = exec i s

/-- Every word presented, in every state, completes in one step with exactly one response of at most three tokens,
placed after all earlier ones (R47, R49, R66, R236). -/
def Obligations.EveryWordCompletesWithOneResponse : Prop :=
  ∀ (s : State) (w : Word) (rest : List HostInput), s.inputs = .command w :: rest →
    ∃ (t : State) (r : List Token), step s = .next t ∧ t.inputs = rest ∧
      t.responses = s.responses ++ [r] ∧ r.length ≤ 3

/-- With nothing presented a step changes nothing. The model's choice (log 1): the spec describes no step without a command. -/
def Obligations.NothingPresentedNothingChanges : Prop :=
  ∀ s : State, s.inputs = [] → step s = .next s

/-- Reset has the combined effect of ENC.INIT and DEC.INIT on the registers and emits no token (R232). That it stands in
the stream between commands is the model's choice (log 6). -/
def Obligations.ResetIsBothInitsWithoutAToken : Prop :=
  ∀ (s : State) (rest : List HostInput), s.inputs = .reset :: rest →
    ∃ t u v : State, step s = .next t ∧ exec .encInit s = .next u ∧ exec .decInit u = .next v ∧
      t = { v with inputs := rest, responses := s.responses }

/-- After reset every register is zero, no other register, mode, mask or vector exists, and STATUS reads 0x00 (R230). -/
def Obligations.ResetRegistersAreZero : Prop :=
  ∃ (ins : List HostInput) (rs : List (List Token)),
    State.reset = { encAcc := 0#4, encCnt := 0#3, decAcc := 0#7, decCnt := 0#3, decErr := 0#1,
                    inputs := ins, responses := rs } ∧
    exec .status State.reset = .next { State.reset with responses := rs ++ [[.W 0x00#8]] }

/-- ENC.INIT and DEC.INIT, in either order and from any state, leave every register as reset does (R233). -/
def Obligations.BothInitsInEitherOrderClearTheCore : Prop :=
  ∀ s : State,
    (∃ t u, exec .encInit s = .next t ∧ exec .decInit t = .next u ∧
      u = { State.reset with inputs := s.inputs, responses := s.responses ++ [[], []] }) ∧
    (∃ t u, exec .decInit s = .next t ∧ exec .encInit t = .next u ∧
      u = { State.reset with inputs := s.inputs, responses := s.responses ++ [[], []] })

/-! ### The tables -/

/-- `ALPHABET` entry by entry, and `VALUE_ROM` as its reverse index (R102). -/
def Obligations.AlphabetContent : Prop :=
  (List.range 32).map (fun n => alphabet (BitVec.ofNat 5 n)) =
    [0x30#8, 0x31#8, 0x32#8, 0x33#8, 0x34#8, 0x35#8, 0x36#8, 0x37#8] ++
    [0x38#8, 0x39#8, 0x41#8, 0x42#8, 0x43#8, 0x44#8, 0x45#8, 0x46#8] ++
    [0x47#8, 0x48#8, 0x4A#8, 0x4B#8, 0x4D#8, 0x4E#8, 0x50#8, 0x51#8] ++
    [0x52#8, 0x53#8, 0x54#8, 0x56#8, 0x57#8, 0x58#8, 0x59#8, 0x5A#8] ∧
  (∀ v : Symbol, valueRom (alphabet v) = v.setWidth 8) ∧
  ∀ c : Byte, canonRom c ≠ 0x00#8 → valueRom c = valueRom (canonRom c)

/-- `CANON_ROM` and `VALUE_ROM` by the rules R101 quotes: the aliases of `0` and `1`, the alphabet itself, its lowercase
letters, and nothing else; 60 characters are valid and 196 are not. -/
def Obligations.CanonicalizationTableContent : Prop :=
  (∀ c ∈ [0x30#8, 0x6F#8, 0x4F#8], canonRom c = 0x30#8) ∧
  (∀ c ∈ [0x31#8, 0x69#8, 0x49#8, 0x6C#8, 0x4C#8], canonRom c = 0x31#8) ∧
  (∀ v : Symbol, canonRom (alphabet v) = alphabet v) ∧
  (∀ v : Symbol, 0x41 ≤ (alphabet v).toNat → canonRom (alphabet v + 0x20#8) = alphabet v) ∧
  (∀ c : Byte, canonRom c ≠ 0x00#8 →
    c ∈ [0x6F#8, 0x4F#8, 0x69#8, 0x49#8, 0x6C#8, 0x4C#8] ∨
    ∃ v : Symbol, c = alphabet v ∨ (0x41 ≤ (alphabet v).toNat ∧ c = alphabet v + 0x20#8)) ∧
  (∀ (c : Byte) (v : Symbol), canonRom c = alphabet v → valueRom c = v.setWidth 8) ∧
  (∀ c : Byte, canonRom c = 0x00#8 → valueRom c = 0xFF#8) ∧
  ((List.range 256).countP fun n => canonRom (BitVec.ofNat 8 n) != 0x00#8) = 60

/-- The laws (a) to (e) of R107: idempotence, the partition into 60 valid and 196 invalid characters, the bijection of
values and digits, the two sentinels together, and the alphabet at a character's value. -/
def Obligations.TableLaws : Prop :=
  (∀ c : Byte, canonRom (canonRom c) = canonRom c) ∧
  ((List.range 256).countP fun n => canonRom (BitVec.ofNat 8 n) != 0x00#8) = 60 ∧
  ((List.range 256).countP fun n => canonRom (BitVec.ofNat 8 n) == 0x00#8) = 196 ∧
  (∀ v : Symbol, valueRom (alphabet v) = v.setWidth 8 ∧ digitFor (v.setWidth 8) = alphabet v) ∧
  (∀ c : Byte, valueRom c = 0xFF#8 ↔ canonRom c = 0x00#8) ∧
  ∀ c : Byte, canonRom c ≠ 0x00#8 → alphabet ((valueRom c).extractLsb' 0 5) = canonRom c

/-! ### The commands -/

/-- CANON (R103): its row of the opcode map, its result with no register written, its corner cases and example. -/
def Obligations.CanonGivesTheCanonicalCharacter : Prop :=
  OperandRow 0x1#4 .canon ∧
  (∀ (c : Byte) (s : State),
    exec (.canon c) s = .next { s with responses := s.responses ++ [[.W (canonRom c)]] }) ∧
  canonRom 0x00#8 = 0x00#8 ∧ canonRom 0x55#8 = 0x00#8 ∧ canonRom 0x75#8 = 0x00#8 ∧
  (∀ c : Byte, 0x80 ≤ c.toNat → canonRom c = 0x00#8) ∧
  (∀ c : Byte, canonRom c ≠ 0x00#8 → (∀ v : Symbol, alphabet v ≠ c) →
    canonRom c ≠ c ∧ ∃ v : Symbol, alphabet v = canonRom c) ∧
  decode 0x106F#16 = .ok (.canon 0x6F#8) ∧ canonRom 0x6F#8 = 0x30#8

/-- ISVALID (R104): its row, its result with no register written, its corner cases and examples. -/
def Obligations.IsvalidSaysWhetherACharacterIsValid : Prop :=
  OperandRow 0x2#4 .isvalid ∧
  (∀ (c : Byte) (s : State), exec (.isvalid c) s =
    .next { s with responses := s.responses ++ [[.W (if canonRom c ≠ 0x00#8 then 0x01#8 else 0x00#8)]] }) ∧
  (∀ c ∈ [0x00#8, 0x55#8, 0x75#8, 0x2D#8], canonRom c = 0x00#8) ∧
  (∀ c ∈ [0x49#8, 0x6C#8, 0x4F#8, 0x6F#8, 0x4C#8], canonRom c ≠ 0x00#8) ∧
  ((List.range 256).countP fun n =>
    match exec (.isvalid (BitVec.ofNat 8 n)) State.reset with
    | .next t => t.responses == [[.W 0x01#8]]
    | .fault _ => false
    | .refused _ => false) = 60 ∧
  decode 0x204C#16 = .ok (.isvalid 0x4C#8) ∧ decode 0x202D#16 = .ok (.isvalid 0x2D#8)

/-- VALUE (R105): its row, its result with no register written, its corner cases and examples. -/
def Obligations.ValueGivesTheAlphabetPosition : Prop :=
  OperandRow 0x3#4 .value ∧
  (∀ (c : Byte) (s : State),
    exec (.value c) s = .next { s with responses := s.responses ++ [[.W (valueRom c)]] }) ∧
  (∀ c : Byte, canonRom c = 0x00#8 → valueRom c = 0xFF#8) ∧
  (∀ c ∈ [0x30#8, 0x6F#8, 0x4F#8], valueRom c = 0x00#8) ∧
  (∀ c ∈ [0x31#8, 0x69#8, 0x49#8, 0x6C#8, 0x4C#8], valueRom c = 0x01#8) ∧
  (∀ c ∈ [0x5A#8, 0x7A#8], valueRom c = 0x1F#8) ∧
  (∀ c : Byte, (valueRom c).toNat < 0x20 ∨ valueRom c = 0xFF#8) ∧
  decode 0x307A#16 = .ok (.value 0x7A#8) ∧ decode 0x3055#16 = .ok (.value 0x55#8) ∧ valueRom 0x55#8 = 0xFF#8

/-- DIGIT (R106): its row, its result with no register written, its corner cases and example. -/
def Obligations.DigitGivesTheAlphabetCharacter : Prop :=
  OperandRow 0x4#4 .digit ∧
  (∀ (v : Byte) (s : State), v.toNat < 32 →
    exec (.digit v) s = .next { s with responses := s.responses ++ [[.W (alphabet (v.extractLsb' 0 5))]] }) ∧
  (∀ (v : Byte) (s : State), 32 ≤ v.toNat →
    exec (.digit v) s = .next { s with responses := s.responses ++ [[.W 0x00#8]] }) ∧
  alphabet 0#5 = 0x30#8 ∧ alphabet 31#5 = 0x5A#8 ∧
  decode 0x4012#16 = .ok (.digit 18#8) ∧ alphabet 18#5 = 0x4A#8

/-- ENC.INIT (R123): its row, and its effect in every state: the encoder cleared, nothing emitted, all else kept. -/
def Obligations.EncInitClearsTheEncoder : Prop :=
  PlainRow 0x5#4 .encInit ∧
  ∀ s : State, exec .encInit s =
    .next { s with encAcc := 0#4, encCnt := 0#3, responses := s.responses ++ [[]] }

/-- ENC.BYTE (R124): its row; for each legal count the digits emitted and the pending bits left, by R124's table, all
else kept; legal states stay legal. The last clause, that a zero byte emits only `'0'` digits and leaves zero bits, carries
the proviso that the pending bits are zero. R124's corner case does not state it: the proviso is the model's reading of
that corner case (log 10, DEDUCED), taken because R124's table and L2.2 give `D(16, 'G')` where a pending bit is set. -/
def Obligations.EncByteEmitsEveryCompleteGroup : Prop :=
  OperandRow 0x6#4 .encByte ∧
  (∀ (b : Byte) (s : State), s.encCnt = 0#3 → exec (.encByte b) s =
    .next { s with
      encAcc := (b.extractLsb' 0 3).setWidth 4
      encCnt := 3#3
      responses := s.responses ++ [[.D (b.extractLsb' 3 5) (alphabet (b.extractLsb' 3 5))]] }) ∧
  (∀ (b : Byte) (s : State) (x : Symbol), s.encCnt = 1#3 → x = s.encAcc.extractLsb' 0 1 ++ b.extractLsb' 4 4 →
    exec (.encByte b) s =
      .next { s with
        encAcc := b.extractLsb' 0 4
        encCnt := 4#3
        responses := s.responses ++ [[.D x (alphabet x)]] }) ∧
  (∀ (b : Byte) (s : State) (x y : Symbol), s.encCnt = 2#3 → x = s.encAcc.extractLsb' 0 2 ++ b.extractLsb' 5 3 →
    y = b.extractLsb' 0 5 → exec (.encByte b) s =
      .next { s with
        encAcc := 0#4
        encCnt := 0#3
        responses := s.responses ++ [[.D x (alphabet x), .D y (alphabet y)]] }) ∧
  (∀ (b : Byte) (s : State) (x y : Symbol), s.encCnt = 3#3 → x = s.encAcc.extractLsb' 0 3 ++ b.extractLsb' 6 2 →
    y = b.extractLsb' 1 5 → exec (.encByte b) s =
      .next { s with
        encAcc := (b.extractLsb' 0 1).setWidth 4
        encCnt := 1#3
        responses := s.responses ++ [[.D x (alphabet x), .D y (alphabet y)]] }) ∧
  (∀ (b : Byte) (s : State) (x y : Symbol), s.encCnt = 4#3 → x = s.encAcc ++ b.extractLsb' 7 1 →
    y = b.extractLsb' 2 5 → exec (.encByte b) s =
      .next { s with
        encAcc := (b.extractLsb' 0 2).setWidth 4
        encCnt := 2#3
        responses := s.responses ++ [[.D x (alphabet x), .D y (alphabet y)]] }) ∧
  (∀ (b : Byte) (s t : State), s.Legal → exec (.encByte b) s = .next t → t.Legal) ∧
  (∀ (s t : State) (r : List Token), s.encAcc = 0#4 → s.encCnt.toNat ≤ 4 →
    exec (.encByte 0x00#8) s = .next t → t.responses = s.responses ++ [r] →
    t.encAcc = 0#4 ∧ ∀ x ∈ r, x = .D 0#5 0x30#8)

/-- ENC.FLUSH (R125): its row; for every legal count, nothing emitted if no bit is pending, else the digit whose high
bits are the pending bits in order and whose other bits are zero; the encoder cleared, all else kept. -/
def Obligations.EncFlushEmitsThePaddedDigit : Prop :=
  PlainRow 0x7#4 .encFlush ∧
  (∀ s : State, s.encCnt = 0#3 →
    exec .encFlush s = .next { s with encAcc := 0#4, encCnt := 0#3, responses := s.responses ++ [[]] }) ∧
  ∀ s : State, 1 ≤ s.encCnt.toNat → s.encCnt.toNat ≤ 4 → ∃ x : Symbol,
    (∀ i < 5, x.getMsbD i = (decide (i < s.encCnt.toNat) && s.encAcc.getLsbD (s.encCnt.toNat - 1 - i))) ∧
    exec .encFlush s =
      .next { s with encAcc := 0#4, encCnt := 0#3, responses := s.responses ++ [[.D x (alphabet x)]] }

/-- DEC.INIT (R143): its row, and its effect in every state: the decoder and DEC_ERR cleared, nothing emitted, all
else kept. -/
def Obligations.DecInitClearsTheDecoder : Prop :=
  PlainRow 0x8#4 .decInit ∧
  ∀ s : State, exec .decInit s =
    .next { s with decAcc := 0#7, decCnt := 0#3, decErr := 0#1, responses := s.responses ++ [[]] }

/-- DEC.SYM (R144): its row with opd[7:5] = 000; for each of the eight counts the byte emitted and the pending bits left,
by R144's table, all else kept, DEC_ERR among it; legal states stay legal. In a job with DEC_ERR = 1 the byte is void to
the host (R146, log 4); the rule still gives it. -/
def Obligations.DecSymEmitsAByteWhenEightBitsAreThere : Prop :=
  (∀ x : Symbol, decode (0x9#4 ++ 0#4 ++ (0#3 ++ x)) = .ok (.decSym x)) ∧
  (∀ (rsv : BitVec 4) (hi : BitVec 3) (x : Symbol), rsv ≠ 0#4 ∨ hi ≠ 0#3 →
    ∃ e, decode (0x9#4 ++ rsv ++ (hi ++ x)) = .error e) ∧
  (∀ (x : Symbol) (s : State), s.decCnt = 0#3 → exec (.decSym x) s =
    .next { s with decAcc := x.setWidth 7, decCnt := 5#3, responses := s.responses ++ [[]] }) ∧
  (∀ (x : Symbol) (s : State), s.decCnt = 1#3 → exec (.decSym x) s =
    .next { s with
      decAcc := (s.decAcc.extractLsb' 0 1 ++ x).setWidth 7, decCnt := 6#3, responses := s.responses ++ [[]] }) ∧
  (∀ (x : Symbol) (s : State), s.decCnt = 2#3 → exec (.decSym x) s =
    .next { s with decAcc := s.decAcc.extractLsb' 0 2 ++ x, decCnt := 7#3, responses := s.responses ++ [[]] }) ∧
  (∀ (x : Symbol) (s : State), s.decCnt = 3#3 → exec (.decSym x) s =
    .next { s with
      decAcc := 0#7, decCnt := 0#3, responses := s.responses ++ [[.B (s.decAcc.extractLsb' 0 3 ++ x)]] }) ∧
  (∀ (x : Symbol) (s : State), s.decCnt = 4#3 → exec (.decSym x) s =
    .next { s with
      decAcc := (x.extractLsb' 0 1).setWidth 7, decCnt := 1#3
      responses := s.responses ++ [[.B (s.decAcc.extractLsb' 0 4 ++ x.extractLsb' 1 4)]] }) ∧
  (∀ (x : Symbol) (s : State), s.decCnt = 5#3 → exec (.decSym x) s =
    .next { s with
      decAcc := (x.extractLsb' 0 2).setWidth 7, decCnt := 2#3
      responses := s.responses ++ [[.B (s.decAcc.extractLsb' 0 5 ++ x.extractLsb' 2 3)]] }) ∧
  (∀ (x : Symbol) (s : State), s.decCnt = 6#3 → exec (.decSym x) s =
    .next { s with
      decAcc := (x.extractLsb' 0 3).setWidth 7, decCnt := 3#3
      responses := s.responses ++ [[.B (s.decAcc.extractLsb' 0 6 ++ x.extractLsb' 3 2)]] }) ∧
  (∀ (x : Symbol) (s : State), s.decCnt = 7#3 → exec (.decSym x) s =
    .next { s with
      decAcc := (x.extractLsb' 0 4).setWidth 7, decCnt := 4#3
      responses := s.responses ++ [[.B (s.decAcc ++ x.extractLsb' 4 1)]] }) ∧
  ∀ (x : Symbol) (s t : State), s.Legal → exec (.decSym x) s = .next t → t.Legal

/-- DEC.CHAR (R145): its row; a valid character does exactly what DEC.SYM of its value does, whatever DEC_ERR holds; an
invalid one sets DEC_ERR and changes nothing else (R146); its alias and invalid corner cases. -/
def Obligations.DecCharAppendsValidAndFlagsInvalid : Prop :=
  OperandRow 0xA#4 .decChar ∧
  (∀ (c : Byte) (s : State), canonRom c ≠ 0x00#8 →
    ∃ (x : Symbol) (t : State), valueRom c = x.setWidth 8 ∧ exec (.decSym x) s = .next t ∧ exec (.decChar c) s = .next t) ∧
  (∀ (c : Byte) (s : State), canonRom c = 0x00#8 →
    exec (.decChar c) s = .next { s with decErr := 1#1, responses := s.responses ++ [[]] }) ∧
  (∀ c ∈ [0x6F#8, 0x4F#8], valueRom c = 0#8) ∧ (∀ c ∈ [0x69#8, 0x49#8, 0x6C#8, 0x4C#8], valueRom c = 1#8) ∧
  (∀ v : Symbol, 0x41 ≤ (alphabet v).toNat → valueRom (alphabet v + 0x20#8) = valueRom (alphabet v)) ∧
  canonRom 0x00#8 = 0x00#8 ∧ canonRom 0x55#8 = 0x00#8 ∧ canonRom 0x75#8 = 0x00#8 ∧
  (∀ c : Byte, 0x80 ≤ c.toNat → canonRom c = 0x00#8)

/-- DEC.FLUSH (R147): its row; for every count, no byte if no bit is pending, else the byte whose high bits are the pending
bits in order and whose other bits are zero; then the verdict word, DEC_ERR zero-extended; the decoder and DEC_ERR
cleared, all else kept. In a job whose verdict is 1 the byte is void to the host (R146, log 4). -/
def Obligations.DecFlushEmitsThePaddedByteAndTheVerdict : Prop :=
  PlainRow 0xB#4 .decFlush ∧
  (∀ s : State, s.decCnt = 0#3 → exec .decFlush s =
    .next { s with
      decAcc := 0#7, decCnt := 0#3, decErr := 0#1
      responses := s.responses ++ [[.W (s.decErr.setWidth 8)]] }) ∧
  ∀ s : State, s.decCnt ≠ 0#3 → ∃ b : Byte,
    (∀ i < 8, b.getMsbD i = (decide (i < s.decCnt.toNat) && s.decAcc.getLsbD (s.decCnt.toNat - 1 - i))) ∧
    exec .decFlush s =
      .next { s with
        decAcc := 0#7, decCnt := 0#3, decErr := 0#1
        responses := s.responses ++ [[.B b, .W (s.decErr.setWidth 8)]] }

/-- STATUS (R170, R26): its row; in every state it emits the word of R26's fields and writes nothing; after reset the word
is 0x00; in a legal state the ENC_CNT field is at most 4; the example of R170. -/
def Obligations.StatusComposesTheWord : Prop :=
  PlainRow 0xC#4 .status ∧
  (∀ s : State, exec .status s =
    .next { s with responses := s.responses ++ [[.W (0#1 ++ s.encCnt ++ s.decErr ++ s.decCnt)]] }) ∧
  exec .status State.reset = .next { State.reset with responses := [[.W 0x00#8]] } ∧
  (∀ (s t : State) (w : Byte), s.Legal → exec .status s = .next t → t.responses = s.responses ++ [[.W w]] →
    (w.extractLsb' 4 3).toNat ≤ 4 ∧ w.extractLsb' 7 1 = 0#1) ∧
  ∃ t : State, runCommands [.encByte 0xFF#8, .decChar 0x55#8, .status] State.reset = .next t ∧
    t.responses.getLast? = some [.W 0x38#8]

/-! ### Frames and isolation -/

/-- The sub-blocks share no state (R31): what each command may write, and what its effect and response may depend on. -/
def Obligations.SubBlocksShareNoState : Prop :=
  (∀ (i : Instr) (s t : State), exec i s = .next t →
    ((subBlock i = .lut ∨ subBlock i = .statusRead) → t = { s with responses := t.responses }) ∧
    (subBlock i = .encoder → t = { s with encAcc := t.encAcc, encCnt := t.encCnt, responses := t.responses }) ∧
    (subBlock i = .decoder →
      t = { s with decAcc := t.decAcc, decCnt := t.decCnt, decErr := t.decErr, responses := t.responses })) ∧
  ∀ (i : Instr) (s s' : State),
    (subBlock i = .encoder → s.encAcc = s'.encAcc ∧ s.encCnt = s'.encCnt) →
    (subBlock i = .decoder → s.decAcc = s'.decAcc ∧ s.decCnt = s'.decCnt ∧ s.decErr = s'.decErr) →
    (subBlock i = .statusRead → s.encCnt = s'.encCnt ∧ s.decErr = s'.decErr ∧ s.decCnt = s'.decCnt) →
    ∃ (t t' : State) (r : List Token), exec i s = .next t ∧ exec i s' = .next t' ∧
      t.responses = s.responses ++ [r] ∧ t'.responses = s'.responses ++ [r] ∧
      (subBlock i = .encoder → t.encAcc = t'.encAcc ∧ t.encCnt = t'.encCnt) ∧
      (subBlock i = .decoder → t.decAcc = t'.decAcc ∧ t.decCnt = t'.decCnt ∧ t.decErr = t'.decErr)

/-- An encoder command and a decoder command may be performed in either order: each gives the same response and the
registers end the same (R31, R235). -/
def Obligations.EncoderAndDecoderCommandsCommute : Prop :=
  ∀ (i j : Instr) (s : State), subBlock i = .encoder → subBlock j = .decoder →
    ∃ (a b t u : State) (r q : List Token),
      exec i s = .next a ∧ exec j a = .next t ∧ exec j s = .next b ∧ exec i b = .next u ∧
      t.responses = s.responses ++ [r, q] ∧ u.responses = s.responses ++ [q, r] ∧
      u = { t with responses := u.responses }

/-- Who sets, clears and reads DEC_ERR (R25): an invalid DEC.CHAR sets it, DEC.INIT, DEC.FLUSH and reset clear it, no other
input writes it; no command but DEC.FLUSH and STATUS does anything different for it; and those two read it: it is the last
token of DEC.FLUSH, zero-extended, and bit 3 of the word of STATUS. -/
def Obligations.DecErrIsStickyAndReadByFlushAndStatus : Prop :=
  (∀ (s t : State) (w : Word) (rest : List HostInput), s.inputs = .command w :: rest → step s = .next t →
    t.decErr = match decode w with
      | .ok (.decChar c) => if canonRom c = 0x00#8 then 1#1 else s.decErr
      | .ok .decInit => 0#1
      | .ok .decFlush => 0#1
      | _ => s.decErr) ∧
  (∀ (s t : State) (rest : List HostInput), s.inputs = .reset :: rest → step s = .next t → t.decErr = 0#1) ∧
  (∀ (i : Instr) (s : State) (e : BitVec 1), i ≠ .decFlush → i ≠ .status →
    ∃ t u : State, exec i s = .next t ∧ exec i { s with decErr := e } = .next u ∧ u = { t with decErr := u.decErr }) ∧
  (∀ s : State, ∃ (t : State) (r : List Token), exec .decFlush s = .next t ∧
    t.responses = s.responses ++ [r ++ [.W (s.decErr.setWidth 8)]]) ∧
  ∀ s : State, ∃ (t : State) (w : Byte), exec .status s = .next t ∧
    t.responses = s.responses ++ [[.W w]] ∧ w.extractLsb' 3 1 = s.decErr

/-- Every digit token a command emits carries the alphabet character of its symbol, a canonical digit whose value is
the symbol (R128). -/
def Obligations.EmittedDigitsAreCanonical : Prop :=
  ∀ (i : Instr) (s t : State) (r : List Token) (x : Symbol) (ch : Byte),
    exec i s = .next t → t.responses = s.responses ++ [r] → Token.D x ch ∈ r →
    ch = alphabet x ∧ canonRom ch = ch ∧ valueRom ch = x.setWidth 8

/-- The error outcomes of R200 in the order of R203: an illegal word answers `[ILL]` and touches no register; otherwise an
invalid DEC.CHAR sets DEC_ERR and answers nothing; otherwise the step is the decoded command's rule (R203 (3)), the
response holds no ILL and DEC_ERR is not newly set. The cause codes are R200's; that they are recorded by `errorOf`, a
function of the word, and that both outcomes are next states, is the model's form (log 3, DEDUCED). -/
def Obligations.ErrorOutcomesAndTheirPriority : Prop :=
  ∀ (s : State) (w : Word) (rest : List HostInput), s.inputs = .command w :: rest →
    ∃ (t : State) (r : List Token), step s = .next t ∧ t.responses = s.responses ++ [r] ∧
      ((∃ e, decode w = .error e) → errorOf w = some .illegalCommand ∧ r = [.ILL] ∧
        t = { s with inputs := rest, responses := t.responses }) ∧
      (∀ c : Byte, decode w = .ok (.decChar c) → canonRom c = 0x00#8 → errorOf w = some .invalidDigit ∧ r = [] ∧
        t = { s with inputs := rest, decErr := 1#1, responses := t.responses }) ∧
      (errorOf w = none → (∃ i : Instr, decode w = .ok i ∧ step s = exec i { s with inputs := rest }) ∧
        Token.ILL ∉ r ∧ (t.decErr = 1#1 → s.decErr = 1#1)) ∧
      (errorOf w = some .illegalCommand → ∃ e, decode w = .error e) ∧
      (errorOf w = some .invalidDigit → ∃ c : Byte, decode w = .ok (.decChar c) ∧ canonRom c = 0x00#8)

/-- The tokens each command emits, by kind and number, in every state (R46, R66). -/
def Obligations.ResponseShapes : Prop :=
  ∀ (i : Instr) (s : State), ∃ (t : State) (r : List Token), exec i s = .next t ∧ t.responses = s.responses ++ [r] ∧
    ((subBlock i = .lut ∨ subBlock i = .statusRead) → ∃ w, r = [.W w]) ∧
    (i = .encInit ∨ i = .decInit → r = []) ∧
    (∀ b, i = .encByte b → ∃ x cx, r = [.D x cx] ∨ ∃ y cy, r = [.D x cx, .D y cy]) ∧
    (i = .encFlush → r = [] ∨ ∃ x cx, r = [.D x cx]) ∧
    (∀ x, i = .decSym x → r = [] ∨ ∃ b, r = [.B b]) ∧
    (∀ c, i = .decChar c → r = [] ∨ ∃ b, r = [.B b]) ∧
    (i = .decFlush → ∃ w, r = [.W w] ∨ ∃ b, r = [.B b, .W w])

/-! ### The invariant -/

/-- Every step keeps the registers within the legal values of R21, whatever the host presents (R23, R24, R32). -/
def Obligations.EveryStepKeepsRegistersLegal : Prop :=
  ∀ s t : State, s.Legal → step s = .next t → t.Legal

/-- The registers are legal after reset (R21, R230). -/
def Obligations.ResetRegistersAreLegal : Prop :=
  State.reset.Legal

/-! ### Jobs -/

/-- ENC.BYTE loses, adds and reorders no bit: the pending bits followed by the byte's bits are the bits of the digits
emitted followed by the bits now pending (R23, R41, R42). -/
def Obligations.EncByteConservesTheBitStream : Prop :=
  ∀ (s : State) (b : Byte), s.encCnt.toNat ≤ 4 →
    ∃ (t : State) (r : List Token), exec (.encByte b) s = .next t ∧ t.responses = s.responses ++ [r] ∧
      pendingBits s.encCnt.toNat s.encAcc ++ bitsOf b =
        (symbolsOf r).flatMap bitsOf ++ pendingBits t.encCnt.toNat t.encAcc

/-- DEC.SYM loses, adds and reorders no bit: the pending bits followed by the symbol's bits are the bits of the byte
emitted, if any, followed by the bits now pending (R24, R42, R43). -/
def Obligations.DecSymConservesTheBitStream : Prop :=
  ∀ (s : State) (x : Symbol),
    ∃ (t : State) (r : List Token), exec (.decSym x) s = .next t ∧ t.responses = s.responses ++ [r] ∧
      pendingBits s.decCnt.toNat s.decAcc ++ bitsOf x =
        (bytesOf r).flatMap bitsOf ++ pendingBits t.decCnt.toNat t.decAcc

/-- Encode job equivalence (R126): from any state with `ENC_CNT = 0`, whatever other words, illegal ones among them, are
interleaved, the digits emitted are ENCODE of the bytes, `ceil(8n/5)` of them, and the encoder ends clear. -/
def Obligations.EncodeJobEmitsEncodeOfItsBytes : Prop :=
  ∀ (s : State) (ws : List Word) (bytes : List Byte),
    s.encCnt = 0#3 → commandsOf .encoder ws = encJob bytes →
    ∃ (t : State) (rs : List (List Token)), runWords ws s = .next t ∧ t.responses = s.responses ++ rs ∧
      symbolsOf rs.flatten = encodeBytes bytes ∧ (symbolsOf rs.flatten).length = (8 * bytes.length + 4) / 5 ∧
      t.encCnt = 0#3 ∧ t.encAcc = 0#4

/-- Encode jobs one after another give the codes one after another, while bytes with no flush between them are encoded as
their concatenation; the two agree when the first has a multiple of five bytes (R127, log 10). -/
def Obligations.EncodeJobsConcatenate : Prop :=
  ∀ (s : State) (xs ys : List Byte), s.encCnt = 0#3 →
    (∃ (t : State) (rs : List (List Token)), runCommands (encJob xs ++ encJob ys) s = .next t ∧
      t.responses = s.responses ++ rs ∧ symbolsOf rs.flatten = encodeBytes xs ++ encodeBytes ys) ∧
    (∃ (t : State) (rs : List (List Token)), runCommands (xs.map .encByte ++ encJob ys) s = .next t ∧
      t.responses = s.responses ++ rs ∧ symbolsOf rs.flatten = encodeBytes (xs ++ ys)) ∧
    (xs.length % 5 = 0 → encodeBytes (xs ++ ys) = encodeBytes xs ++ encodeBytes ys)

/-- Decode job equivalence (R149) for jobs whose bytes are not void (R146, log 4): from any state with `DEC_CNT = 0` and no
pending error, whatever other words are interleaved before and after the flush, a job of DEC.SYM and valid DEC.CHAR
commands emits DECODE of the symbols they carry, `ceil(5d/8)` bytes, then one verdict word 0; the decoder ends clear. -/
def Obligations.DecodeJobEmitsDecodeOfItsSymbols : Prop :=
  ∀ (s : State) (pre post : List Word) (syms : List Symbol),
    s.decCnt = 0#3 → s.decErr = 0#1 →
    (commandsOf .decoder pre).map carriedSymbol = syms.map some → commandsOf .decoder post = [] →
    ∃ (t : State) (rs qs : List (List Token)) (r : List Token),
      runWords (pre ++ encode .decFlush :: post) s = .next t ∧ t.responses = s.responses ++ rs ++ [r] ++ qs ∧
      rs.length = pre.length ∧ qs.length = post.length ∧
      bytesOf (rs.flatten ++ r) = decodeSymbols syms ∧
      (bytesOf (rs.flatten ++ r)).length = (5 * syms.length + 7) / 8 ∧ bytesOf qs.flatten = [] ∧
      r = (bytesOf r).map .B ++ [.W 0x00#8] ∧
      t.decCnt = 0#3 ∧ t.decAcc = 0#7 ∧ t.decErr = 0#1

/-- Construction and decode as one job (R150): from any state, DEC.JOB of a raw string reports `W(0x00)` exactly when every
character is valid, and then its byte tokens are DECODE of the characters' values; else it reports `W(0x01)`. -/
def Obligations.CharacterJobValidatesAndDecodes : Prop :=
  ∀ (s : State) (chars : List Byte),
    ∃ (t : State) (rs : List (List Token)), runCommands (decJob chars) s = .next t ∧ t.responses = s.responses ++ rs ∧
      (rs.flatten.getLast? = some (.W 0x00#8) ↔ ∀ c ∈ chars, canonRom c ≠ 0x00#8) ∧
      ((∀ c ∈ chars, canonRom c ≠ 0x00#8) → rs.flatten =
        (decodeSymbols (chars.map fun c => (valueRom c).extractLsb' 0 5)).map .B ++ [.W 0x00#8]) ∧
      ((∃ c ∈ chars, canonRom c = 0x00#8) → rs.flatten.getLast? = some (.W 0x01#8)) ∧
      (chars = [] → rs.flatten = [.W 0x00#8])

/-- DEC.FLUSH's verdict (R148): after DEC.INIT, DEC.FLUSH or reset, and any words that are neither DEC.INIT nor DEC.FLUSH,
the verdict word is `W(0x01)` if one of them was DEC.CHAR with an invalid character, else `W(0x00)`; and DEC_ERR is
cleared with it. -/
def Obligations.VerdictSaysWhetherACharacterWasInvalid : Prop :=
  ∀ (s : State) (start : HostInput) (ws : List Word),
    start = .command (encode .decInit) ∨ start = .command (encode .decFlush) ∨ start = .reset →
    (∀ w ∈ ws, decode w ≠ .ok .decInit ∧ decode w ≠ .ok .decFlush) →
    ∃ (t : State) (rs : List (List Token)) (r : List Token),
      run (ws.length + 2) { s with inputs := start :: (ws.map .command ++ [.command (encode .decFlush)]) } = .next t ∧
      t.responses = s.responses ++ rs ++ [r] ∧ t.decErr = 0#1 ∧
      ((∃ w ∈ ws, ∃ c : Byte, decode w = .ok (.decChar c) ∧ canonRom c = 0x00#8) → r.getLast? = some (.W 0x01#8)) ∧
      ((∀ w ∈ ws, ∀ c : Byte, decode w = .ok (.decChar c) → canonRom c ≠ 0x00#8) → r.getLast? = some (.W 0x00#8))

/-- Encode then decode (R129): the digits of an encode job, decoded as a job, give the bytes back, followed by one 0x00
exactly when their number is no multiple of five. -/
def Obligations.DecodingAnEncodedJobGivesItsBytes : Prop :=
  ∀ (s : State) (bytes : List Byte), s.encCnt = 0#3 → s.decCnt = 0#3 → s.decErr = 0#1 →
    ∃ (t u : State) (rs qs : List (List Token)),
      runCommands (encJob bytes) s = .next t ∧ t.responses = s.responses ++ rs ∧
      symbolsOf rs.flatten = encodeBytes bytes ∧
      runCommands (symJob (symbolsOf rs.flatten)) t = .next u ∧ u.responses = t.responses ++ qs ∧
      bytesOf qs.flatten = bytes ++ (if bytes.length % 5 = 0 then [] else [0x00#8]) ∧
      (bytesOf qs.flatten).length = decodedSize (encodedLength bytes.length)

/-- Decode then encode (R151): the bytes of a decode job, encoded as a job, give every symbol back, followed by R151's
number of zero symbols, which is `ceil(8*DECODED_SIZE(d)/5) - d`. -/
def Obligations.EncodingADecodedJobGivesItsSymbols : Prop :=
  ∀ (s : State) (syms : List Symbol), s.encCnt = 0#3 → s.decCnt = 0#3 → s.decErr = 0#1 →
    ∃ (t u : State) (rs qs : List (List Token)),
      runCommands (symJob syms) s = .next t ∧ t.responses = s.responses ++ rs ∧
      bytesOf rs.flatten = decodeSymbols syms ∧
      runCommands (encJob (bytesOf rs.flatten)) t = .next u ∧ u.responses = t.responses ++ qs ∧
      symbolsOf qs.flatten =
        syms ++ List.replicate ([0, 1, 2, 1, 1, 2, 1, 1].getD (syms.length % 8) 0) 0#5 ∧
      (symbolsOf qs.flatten).length = (8 * ((5 * syms.length + 7) / 8) + 4) / 5
end

