-- ==== Sys2Proof/Laws/Decode.lean ====
section
/-! SUPPORT. Splitting a command word into its fields and joining them are inverse, and the decoder accepts exactly the words whose fields pass the checks of WellFormed.lean. -/

namespace Sys2Proof

theorem ofWord_toWord (r : RawCommand) : RawCommand.ofWord r.toWord = r := by
  cases r
  simp only [RawCommand.ofWord, RawCommand.toWord, RawCommand.mk.injEq]
  refine ⟨?_, ?_, ?_⟩ <;> ext i hi <;> simp <;> grind

theorem toWord_ofWord (w : Word) : (RawCommand.ofWord w).toWord = w := by
  simp only [RawCommand.ofWord, RawCommand.toWord]
  ext i hi
  simp only [BitVec.getElem_append, BitVec.getElem_extractLsb']
  split
  · simp [BitVec.getLsbD_eq_getElem hi]
  · split
    · rw [BitVec.getLsbD_eq_getElem (by omega)]
      congr 1
      omega
    · rw [BitVec.getLsbD_eq_getElem (by omega)]
      congr 1
      omega

theorem decode_toWord (r : RawCommand) : decode r.toWord = decodeRaw r := by
  rw [decode, ofWord_toWord]

/-- The decoder against the four checks of R63, field by field. -/
theorem decodeRaw_isOk_iff (r : RawCommand) : (∃ i, decodeRaw r = .ok i) ↔ r.wellFormed = true := by
  obtain ⟨op, rsv, opd⟩ := r
  have hop : op ∈ (List.range 16).map (BitVec.ofNat 4) := by
    revert op
    decide
  simp only [List.range, List.range.loop, List.map_cons, List.map_nil, List.mem_cons, List.not_mem_nil,
    or_false] at hop
  by_cases hr : rsv = 0#4
  · rcases hop with rfl | rfl | rfl | rfl | rfl | rfl | rfl | rfl | rfl | rfl | rfl | rfl | rfl | rfl | rfl | rfl <;>
      simp [decodeRaw, decodeOperand, decodePlain, decodeSymbol, hr, RawCommand.wellFormed, RawCommand.opcodeAssigned,
        RawCommand.reservedClear, RawCommand.operandClear, RawCommand.symbolFits, opcodesWithoutOperand] <;>
      split <;> simp_all
  · rcases hop with rfl | rfl | rfl | rfl | rfl | rfl | rfl | rfl | rfl | rfl | rfl | rfl | rfl | rfl | rfl | rfl <;>
      simp [decodeRaw, decodeOperand, decodePlain, decodeSymbol, hr, RawCommand.wellFormed, RawCommand.opcodeAssigned,
        RawCommand.reservedClear, RawCommand.operandClear, RawCommand.symbolFits, opcodesWithoutOperand]

/-- A word is a command exactly when its fields are well-formed (R63, R65). -/
theorem decode_isOk_iff (w : Word) : (∃ i, decode w = .ok i) ↔ (RawCommand.ofWord w).wellFormed = true :=
  decodeRaw_isOk_iff _

end Sys2Proof
end

