-- ==== Sys2Proof/Laws/State.lean ====
section
/-! SUPPORT. What each register update of Machine/Ops.lean does to each field of State. -/

namespace Sys2Proof.Machine

variable (s : State) (r : List Token) (ea : BitVec 4) (ec dc : BitVec 3) (da : BitVec 7) (e : BitVec 1)

@[simp] theorem State.respond_encAcc : (s.respond r).encAcc = s.encAcc := rfl
@[simp] theorem State.respond_encCnt : (s.respond r).encCnt = s.encCnt := rfl
@[simp] theorem State.respond_decAcc : (s.respond r).decAcc = s.decAcc := rfl
@[simp] theorem State.respond_decCnt : (s.respond r).decCnt = s.decCnt := rfl
@[simp] theorem State.respond_decErr : (s.respond r).decErr = s.decErr := rfl
@[simp] theorem State.respond_inputs : (s.respond r).inputs = s.inputs := rfl
@[simp] theorem State.respond_responses : (s.respond r).responses = s.responses ++ [r] := rfl

@[simp] theorem State.writeEncoder_encAcc : (s.writeEncoder ea ec).encAcc = ea := rfl
@[simp] theorem State.writeEncoder_encCnt : (s.writeEncoder ea ec).encCnt = ec := rfl
@[simp] theorem State.writeEncoder_decAcc : (s.writeEncoder ea ec).decAcc = s.decAcc := rfl
@[simp] theorem State.writeEncoder_decCnt : (s.writeEncoder ea ec).decCnt = s.decCnt := rfl
@[simp] theorem State.writeEncoder_decErr : (s.writeEncoder ea ec).decErr = s.decErr := rfl
@[simp] theorem State.writeEncoder_inputs : (s.writeEncoder ea ec).inputs = s.inputs := rfl
@[simp] theorem State.writeEncoder_responses : (s.writeEncoder ea ec).responses = s.responses := rfl

@[simp] theorem State.writeDecoder_encAcc : (s.writeDecoder da dc).encAcc = s.encAcc := rfl
@[simp] theorem State.writeDecoder_encCnt : (s.writeDecoder da dc).encCnt = s.encCnt := rfl
@[simp] theorem State.writeDecoder_decAcc : (s.writeDecoder da dc).decAcc = da := rfl
@[simp] theorem State.writeDecoder_decCnt : (s.writeDecoder da dc).decCnt = dc := rfl
@[simp] theorem State.writeDecoder_decErr : (s.writeDecoder da dc).decErr = s.decErr := rfl
@[simp] theorem State.writeDecoder_inputs : (s.writeDecoder da dc).inputs = s.inputs := rfl
@[simp] theorem State.writeDecoder_responses : (s.writeDecoder da dc).responses = s.responses := rfl

@[simp] theorem State.writeDecErr_encAcc : (s.writeDecErr e).encAcc = s.encAcc := rfl
@[simp] theorem State.writeDecErr_encCnt : (s.writeDecErr e).encCnt = s.encCnt := rfl
@[simp] theorem State.writeDecErr_decAcc : (s.writeDecErr e).decAcc = s.decAcc := rfl
@[simp] theorem State.writeDecErr_decCnt : (s.writeDecErr e).decCnt = s.decCnt := rfl
@[simp] theorem State.writeDecErr_decErr : (s.writeDecErr e).decErr = e := rfl
@[simp] theorem State.writeDecErr_inputs : (s.writeDecErr e).inputs = s.inputs := rfl
@[simp] theorem State.writeDecErr_responses : (s.writeDecErr e).responses = s.responses := rfl

end Sys2Proof.Machine
end

