-- ==== Sys2Proof/Laws/Ops.lean ====
section
/-! SUPPORT. One lemma per shared operation: what each operand form computes as a number, and what the two packing steps and reset do to the state. -/

namespace Sys2Proof.Machine

theorem slice_toNat {m : Nat} (lo n : Nat) (v : BitVec m) :
    (slice lo n v).toNat = v.toNat / 2 ^ lo % 2 ^ n := by
  simp [slice, Nat.shiftRight_eq_div_pow]

theorem lowBits_toNat {m : Nat} (k : Nat) (v : BitVec m) (hk : k ≤ m) :
    (lowBits k v).toNat = v.toNat % 2 ^ k := by
  have hlt : 2 ^ k - 1 < 2 ^ m :=
    Nat.lt_of_lt_of_le (Nat.sub_lt (Nat.two_pow_pos k) Nat.one_pos) (Nat.pow_le_pow_right (by omega) hk)
  simp only [lowBits, BitVec.toNat_and, BitVec.toNat_ofNat, Nat.mod_eq_of_lt hlt]
  exact Nat.and_two_pow_sub_one_eq_mod _ _

/-- The pending bits stand above the byte: R124's window as a number. -/
theorem encWindow_toNat (acc : BitVec 4) (b : Byte) :
    (encWindow acc b).toNat = acc.toNat * 256 + b.toNat := by
  have ha := acc.isLt
  have hb := b.isLt
  have hor : acc.toNat <<< 8 ||| b.toNat = acc.toNat <<< 8 + b.toNat :=
    (Nat.shiftLeft_add_eq_or_of_lt hb _).symm
  simp only [encWindow, Config.byteWidth, BitVec.toNat_or, BitVec.toNat_shiftLeft, BitVec.toNat_setWidth]
  rw [Nat.mod_eq_of_lt (by omega : acc.toNat < 2 ^ 12), Nat.mod_eq_of_lt (by omega : b.toNat < 2 ^ 12),
    Nat.mod_eq_of_lt (by simp only [Nat.shiftLeft_eq]; omega : acc.toNat <<< 8 < 2 ^ 12), hor, Nat.shiftLeft_eq]

/-- The pending bits stand above the symbol: R144's window as a number. -/
theorem decWindow_toNat (acc : BitVec 7) (x : Symbol) :
    (decWindow acc x).toNat = acc.toNat * 32 + x.toNat := by
  have ha := acc.isLt
  have hx := x.isLt
  have hor : acc.toNat <<< 5 ||| x.toNat = acc.toNat <<< 5 + x.toNat :=
    (Nat.shiftLeft_add_eq_or_of_lt hx _).symm
  simp only [decWindow, Config.symbolWidth, BitVec.toNat_or, BitVec.toNat_shiftLeft, BitVec.toNat_setWidth]
  rw [Nat.mod_eq_of_lt (by omega : acc.toNat < 2 ^ 12), Nat.mod_eq_of_lt (by omega : x.toNat < 2 ^ 12),
    Nat.mod_eq_of_lt (by simp only [Nat.shiftLeft_eq]; omega : acc.toNat <<< 5 < 2 ^ 12), hor, Nat.shiftLeft_eq]

theorem padSymbol_toNat (acc : BitVec 4) (cnt : BitVec 3) :
    (padSymbol acc cnt).toNat = acc.toNat * 2 ^ (5 - cnt.toNat) % 32 := by
  have ha := acc.isLt
  simp [padSymbol, Nat.shiftLeft_eq, Nat.mod_eq_of_lt (by omega : acc.toNat < 32)]

theorem padByte_toNat (acc : BitVec 7) (cnt : BitVec 3) :
    (padByte acc cnt).toNat = acc.toNat * 2 ^ (8 - cnt.toNat) % 256 := by
  have ha := acc.isLt
  simp [padByte, Nat.shiftLeft_eq, Nat.mod_eq_of_lt (by omega : acc.toNat < 256)]

/-- Of 8 to 12 bits, 0 to 4 are left (R124). -/
theorem encLeft_le (k : Nat) (hk : k ≤ 12) (hlow : 8 ≤ k) : encLeft k ≤ 4 := by
  unfold encLeft
  split <;> omega

/-- Of 5 to 12 bits, 0 to 7 are left (R144). -/
theorem decLeft_le (k : Nat) (hk : k ≤ 12) : decLeft k ≤ 7 := by
  unfold decLeft
  split <;> omega

/-- ENC.BYTE's packing writes the encoder's two registers and responds; nothing else of the state changes. -/
theorem appendByte_eq (b : Byte) (s : State) :
    appendByte b s =
      { s with
        encAcc := (lowBits (encLeft (s.encCnt.toNat + 8)) (encWindow s.encAcc b)).setWidth 4
        encCnt := BitVec.ofNat 3 (encLeft (s.encCnt.toNat + 8))
        responses :=
          s.responses ++ [(encGroups (encWindow s.encAcc b) (s.encCnt.toNat + 8)).map digitToken] } := rfl

/-- DEC.SYM's packing writes the decoder's accumulator and count and responds; nothing else of the state changes. -/
theorem appendSymbol_eq (x : Symbol) (s : State) :
    appendSymbol x s =
      { s with
        decAcc := (lowBits (decLeft (s.decCnt.toNat + 5)) (decWindow s.decAcc x)).setWidth 7
        decCnt := BitVec.ofNat 3 (decLeft (s.decCnt.toNat + 5))
        responses := s.responses ++ [decBytes (decWindow s.decAcc x) (s.decCnt.toNat + 5)] } := rfl

theorem applyReset_eq (s : State) :
    applyReset s = { State.reset with inputs := s.inputs, responses := s.responses } := rfl

theorem raiseIllegal_eq (s : State) :
    raiseIllegal s = { s with responses := s.responses ++ [[.ILL]] } := rfl

/-- A fetch takes the head of the stream and changes nothing else. -/
theorem fetch_cons (s : State) (x : HostInput) (rest : List HostInput) (h : s.inputs = x :: rest) :
    fetch s = some (x, { s with inputs := rest }) := by
  simp [fetch, h]

theorem fetch_nil (s : State) (h : s.inputs = []) : fetch s = none := by
  simp [fetch, h]

end Sys2Proof.Machine
end

