-- ==== Sys2Proof/Laws/PerInstr.lean ====
section
/-! SUPPORT. The family EncodesLegally: every command's fields, as encoded, pass the four checks of R63. -/

namespace Sys2Proof.Laws.EncodesLegally

/-- The encoded fields of a command are well-formed. -/
def Statement (i : Instr) : Prop := (encodeRaw i).wellFormed = true

theorem canon (c : Byte) : Statement (.canon c) := rfl
theorem isvalid (c : Byte) : Statement (.isvalid c) := rfl
theorem value (c : Byte) : Statement (.value c) := rfl
theorem digit (v : Byte) : Statement (.digit v) := rfl
theorem encInit : Statement .encInit := rfl
theorem encByte (b : Byte) : Statement (.encByte b) := rfl
theorem encFlush : Statement .encFlush := rfl
theorem decInit : Statement .decInit := rfl
theorem decSym (s : Symbol) : Statement (.decSym s) := by
  revert s
  unfold Statement
  decide
theorem decChar (c : Byte) : Statement (.decChar c) := rfl
theorem decFlush : Statement .decFlush := rfl
theorem status : Statement .status := rfl

end Sys2Proof.Laws.EncodesLegally
end

