-- ==== Sys2Proof/Laws/Step.lean ====
section
/-! SUPPORT. What a command and a step can do, said once, and how runs compose. -/

namespace Sys2Proof.Machine

/-- Every command answers a next state; it adds one response and leaves the input stream alone. -/
theorem exec_next (i : Instr) (s : State) :
    ∃ t r, exec i s = .next t ∧ t.responses = s.responses ++ [r] ∧ t.inputs = s.inputs := by
  cases i with
  | decChar c =>
    by_cases hc : charValid c = true
    · exact ⟨appendSymbol (charSymbol c) s, _, by simp [exec, execDecChar, hc], rfl, rfl⟩
    · exact ⟨(s.writeDecErr errSet).respond [], _, by simp [exec, execDecChar, hc], rfl, rfl⟩
  | _ => exact ⟨_, _, rfl, rfl, rfl⟩

/-- The four things a step can be: idle, a reset, a command performed, an illegal word. -/
theorem step_cases (s : State) :
    (s.inputs = [] ∧ step s = .next s) ∨
    (∃ rest, s.inputs = .reset :: rest ∧ step s = .next (applyReset { s with inputs := rest })) ∨
    (∃ w rest i, s.inputs = .command w :: rest ∧ decode w = .ok i ∧ step s = exec i { s with inputs := rest }) ∨
    (∃ w rest e, s.inputs = .command w :: rest ∧ decode w = .error e ∧
      step s = .next (raiseIllegal { s with inputs := rest })) := by
  rcases hi : s.inputs with _ | ⟨x, rest⟩
  · exact .inl ⟨rfl, by simp [step, fetch_nil s hi, idle]⟩
  · cases x with
    | reset => exact .inr (.inl ⟨rest, rfl, by simp [step, fetch_cons s _ _ hi]⟩)
    | command w =>
      rcases hd : decode w with e | i
      · exact .inr (.inr (.inr ⟨w, rest, e, rfl, hd, by simp [step, fetch_cons s _ _ hi, hd]⟩))
      · exact .inr (.inr (.inl ⟨w, rest, i, rfl, hd, by simp [step, fetch_cons s _ _ hi, hd]⟩))

/-- One step of the host interface's run, for any machine. -/
theorem core_run_succ (M : Host.Core) (k : Nat) (s : M.State) :
    M.run (k + 1) s = match M.step s with
      | .next t => M.run k t
      | .fault r => .fault r
      | .refused r => .refused r := by
  cases h : M.step s <;> simp only [Host.Core.run, h]

/-- The claims' `run` is the host interface's own. -/
theorem run_eq_core_run (k : Nat) (s : State) : run k s = Host.Core.run Sys2Proof.core k s := by
  induction k generalizing s with
  | zero => rfl
  | succ k ih =>
    refine Eq.trans ?_ (core_run_succ Sys2Proof.core k s).symm
    have hstep : Sys2Proof.core.step s = step s := rfl
    rw [run, hstep]
    cases step s with
    | next t => exact ih t
    | fault r => rfl
    | refused r => rfl

theorem run_succ (k : Nat) {s t : State} (h : step s = .next t) : run (k + 1) s = run k t := by
  simp [run, h]

/-- A run of j + k steps is a run of k steps after one of j. -/
theorem run_add (j k : Nat) {s t : State} (h : run j s = .next t) : run (j + k) s = run k t := by
  induction j generalizing s with
  | zero =>
    cases h
    simp
  | succ j ih =>
    rw [Nat.add_right_comm, run]
    rw [run] at h
    cases hs : step s with
    | next u => simp only [hs] at h ⊢; exact ih h
    | fault r => simp [hs] at h
    | refused r => simp [hs] at h

end Sys2Proof.Machine
end

