-- ==== Sys2Proof/Tests/Slice0.lean ====
section
/-! SUPPORT. Tests. Expected results are the spec's own: the encodings of 30_encoding.md, the examples of the rules, and the tables of 95_test_vectors.md. The witness theorems show, for each statement with hypotheses, a state and operands that meet them. -/

namespace Sys2Proof.Tests

open Sys2Proof.Machine

/-- A state by its registers and what is presented, nothing answered yet. -/
def st (encAcc : BitVec 4) (encCnt : BitVec 3) (decAcc : BitVec 7) (decCnt : BitVec 3) (decErr : BitVec 1)
    (words : List Word) : State :=
  { encAcc, encCnt, decAcc, decCnt, decErr, inputs := words.map .command, responses := [] }

/-- The next state of an outcome. -/
def nextOf (o : Host.Outcome State Fault Refusal) : Option State :=
  match o with
  | .next t => some t
  | .fault _ => none
  | .refused _ => none

/-- The registers and the responses after an outcome. -/
def view (o : Host.Outcome State Fault Refusal) :
    Option ((BitVec 4 × BitVec 3) × (BitVec 7 × BitVec 3 × BitVec 1) × List (List Token)) :=
  (nextOf o).map fun t => ((t.encAcc, t.encCnt), (t.decAcc, t.decCnt, t.decErr), t.responses)

/-! ### Well-formedness: one ill-formed command per check (30_encoding.md R63) -/

theorem test_wellFormed_accepts_a_command : (RawCommand.ofWord 0x60F8#16).wellFormed = true := by decide
theorem test_wellFormed_refuses_reserved_opcode : (RawCommand.mk 0xD#4 0#4 0#8).opcodeAssigned = false := by decide
theorem test_wellFormed_refuses_reserved_bits : (RawCommand.mk 0x1#4 0x1#4 0#8).reservedClear = false := by decide
theorem test_wellFormed_refuses_an_operand : (RawCommand.mk 0x7#4 0#4 0x80#8).operandClear = false := by decide
theorem test_wellFormed_refuses_a_wide_symbol : (RawCommand.mk 0x9#4 0#4 0x20#8).symbolFits = false := by decide
theorem test_wellFormed_is_all_four :
    [(RawCommand.mk 0xD#4 0#4 0#8).wellFormed, (RawCommand.mk 0x1#4 0x1#4 0#8).wellFormed,
     (RawCommand.mk 0x7#4 0#4 0x80#8).wellFormed, (RawCommand.mk 0x9#4 0#4 0x20#8).wellFormed] =
    [false, false, false, false] := by decide

/-! ### Decoding: each row's word written out bit by bit from spec/opcode_table.json's encoding -/

theorem test_decode_canon : decode 0b0001000001101111#16 = .ok (.canon 0x6F#8) := by decide
theorem test_decode_isvalid : decode 0b0010000001001100#16 = .ok (.isvalid 0x4C#8) := by decide
theorem test_decode_value : decode 0b0011000001111010#16 = .ok (.value 0x7A#8) := by decide
theorem test_decode_digit : decode 0b0100000000010010#16 = .ok (.digit 18#8) := by decide
theorem test_decode_encInit : decode 0b0101000000000000#16 = .ok .encInit := by decide
theorem test_decode_encByte : decode 0b0110000011111000#16 = .ok (.encByte 0xF8#8) := by decide
theorem test_decode_encFlush : decode 0b0111000000000000#16 = .ok .encFlush := by decide
theorem test_decode_decInit : decode 0b1000000000000000#16 = .ok .decInit := by decide
theorem test_decode_decSym : decode 0b1001000000010110#16 = .ok (.decSym 22#5) := by decide
theorem test_decode_decChar : decode 0b1010000001111010#16 = .ok (.decChar 0x7A#8) := by decide
theorem test_decode_decFlush : decode 0b1011000000000000#16 = .ok .decFlush := by decide
theorem test_decode_status : decode 0b1100000000000000#16 = .ok .status := by decide

/-- The illegal words of 95_test_vectors.md L2.4, each rejected by its case of R63. -/
theorem test_decode_rejects_by_name :
    [0x0000#16, 0xD000#16, 0xE05A#16, 0xFFFF#16].map decode = List.replicate 4 (.error .reservedOpcode) ∧
    [0x1100#16, 0x6F00#16, 0xA85A#16].map decode = List.replicate 3 (.error .reservedBits) ∧
    [0x5001#16, 0x7080#16, 0x8001#16, 0xB001#16, 0xC0FF#16].map decode = List.replicate 5 (.error .operandNotZero) ∧
    [0x9020#16, 0x90FF#16].map decode = List.replicate 2 (.error .symbolTooWide) := by decide

theorem test_decodeTableWord : decodeTableWord 16 0x6012 = some (.encByte 0x12#8) := by decide

/-- R68's examples, and a quoted `;` with a comment after it (log 9). -/
theorem test_assemble :
    assembledWord ['E', 'N', 'C', '.', 'B', 'Y', 'T', 'E', ' ', '0', 'x', 'F', '8'] = some 0x60F8#16 ∧
    assembledWord ['D', 'E', 'C', '.', 'C', 'H', 'A', 'R', ' ', asmQuote, 'z', asmQuote] = some 0xA07A#16 ∧
    assembledWord ['C', 'A', 'N', 'O', 'N', ' ', asmQuote, ';', asmQuote, ' ', ';', 'x'] = some 0x103B#16 := by decide

theorem test_assemble_rejects :
    assembleLine ['D', 'E', 'C', '.', 'S', 'Y', 'M', ' ', '3', '2'] = .malformed ∧
    assembleLine ['S', 'T', 'A', 'T', 'U', 'S', ' ', '1'] = .malformed ∧
    assembleLine [' ', ';', 'x'] = .blank := by decide

/-! ### The lookup commands (R103 to R106, L2.1) -/

theorem test_canon_alias_o : view (exec (.canon 0x6F#8) .reset) = some ((0, 0), (0, 0, 0), [[.W 0x30#8]]) := by decide
theorem test_canon_u : view (exec (.canon 0x75#8) .reset) = some ((0, 0), (0, 0, 0), [[.W 0x00#8]]) := by decide
theorem test_isvalid_alias_L : view (exec (.isvalid 0x4C#8) .reset) = some ((0, 0), (0, 0, 0), [[.W 0x01#8]]) := by decide
theorem test_isvalid_hyphen : view (exec (.isvalid 0x2D#8) .reset) = some ((0, 0), (0, 0, 0), [[.W 0x00#8]]) := by decide
theorem test_value_z : view (exec (.value 0x7A#8) .reset) = some ((0, 0), (0, 0, 0), [[.W 0x1F#8]]) := by decide
theorem test_value_U : view (exec (.value 0x55#8) .reset) = some ((0, 0), (0, 0, 0), [[.W 0xFF#8]]) := by decide
theorem test_digit_18 : view (exec (.digit 18#8) .reset) = some ((0, 0), (0, 0, 0), [[.W 0x4A#8]]) := by decide
theorem test_digit_32 : view (exec (.digit 32#8) .reset) = some ((0, 0), (0, 0, 0), [[.W 0x00#8]]) := by decide

/-! ### The encoder (L2.2) -/

theorem test_encInit : view (exec .encInit (st 0b1111 4 0b11 2 1 [])) = some ((0, 0), (0b11, 2, 1), [[]]) := by decide
theorem test_encByte_from_3 : view (exec (.encByte 0xA5#8) (st 0b111 3 0 0 0 [])) =
    some ((0b1, 1), (0, 0, 0), [[.D 30#5 0x59#8, .D 18#5 0x4A#8]]) := by decide
theorem test_encByte_from_4 : view (exec (.encByte 0xA5#8) (st 0b1111 4 0 0 0 [])) =
    some ((0b01, 2), (0, 0, 0), [[.D 31#5 0x5A#8, .D 9#5 0x39#8]]) := by decide
theorem test_encFlush_from_2 : view (exec .encFlush (st 0b10 2 0 0 0 [])) =
    some ((0, 0), (0, 0, 0), [[.D 16#5 0x47#8]]) := by decide
theorem test_encFlush_empty : view (exec .encFlush (st 0 0 0 0 0 [])) = some ((0, 0), (0, 0, 0), [[]]) := by decide

/-! ### The decoder (L2.3) -/

theorem test_decInit : view (exec .decInit (st 0b11 2 0b11 2 1 [])) = some ((0b11, 2), (0, 0, 0), [[]]) := by decide
theorem test_decSym_from_7 : view (exec (.decSym 21#5) (st 0 0 0b1111111 7 0 [])) =
    some ((0, 0), (0b0101, 4, 0), [[.B 0xFF#8]]) := by decide
theorem test_decSym_from_2 : view (exec (.decSym 21#5) (st 0 0 0b11 2 0 [])) =
    some ((0, 0), (0b1110101, 7, 0), [[]]) := by decide
theorem test_decChar_alias_l : view (exec (.decChar 0x6C#8) .reset) = some ((0, 0), (0b00001, 5, 0), [[]]) := by decide
theorem test_decChar_invalid_midjob : view (exec (.decChar 0x55#8) (st 0 0 0b11111 5 0 [])) =
    some ((0, 0), (0b11111, 5, 1), [[]]) := by decide
theorem test_decFlush_from_5 : view (exec .decFlush (st 0 0 0b11111 5 1 [])) =
    some ((0, 0), (0, 0, 0), [[.B 0xF8#8, .W 0x01#8]]) := by decide
theorem test_decFlush_empty : view (exec .decFlush (st 0 0 0 0 0 [])) = some ((0, 0), (0, 0, 0), [[.W 0x00#8]]) := by decide

/-! ### Status, illegal words, reset, and the step (L2.4, R201, R232) -/

theorem test_status_all_fields : view (exec .status (st 0b1111 4 0b1111111 7 1 [])) =
    some ((0b1111, 4), (0b1111111, 7, 1), [[.W 0x4F#8]]) := by decide
theorem test_illegal_decChar_sets_no_flag : view (step (st 0b111 3 0b11 2 0 [0xA855#16])) =
    some ((0b111, 3), (0b11, 2, 0), [[.ILL]]) := by decide
theorem test_reset_ends_a_job :
    nextOf (step { st 0b111 3 0b11 2 1 [] with inputs := [.reset, .command 0xC000#16], responses := [[.ILL]] }) =
    some { st 0 0 0 0 0 [0xC000#16] with responses := [[.ILL]] } := by decide
theorem test_withFetchWord_runs : view (step (State.withFetchWord .reset 16 0x4012)) =
    some ((0, 0), (0, 0, 0), [[.W 0x4A#8]]) := by decide

/-- The source's literal scenario (L1.3): ENCODE and DECODE. -/
theorem test_reference_scenario :
    encodeBytes [0xF8#8, 0x3E#8] = [31#5, 0#5, 31#5, 0#5] ∧
    decodeSymbols [31#5, 0#5, 31#5, 0#5] = [0xF8#8, 0x3E#8, 0x00#8] := by decide

/-! ### Witnesses: states and operands that meet the hypotheses of the statements -/

/-- OpcodeMapByMatchAndMask, the highest operand of each row, and each reserved opcode. -/
theorem witness_opcode_rows :
    0x10FF#16 &&& 0xFF00#16 = 0x1000#16 ∧ 0x20FF#16 &&& 0xFF00#16 = 0x2000#16 ∧ 0x30FF#16 &&& 0xFF00#16 = 0x3000#16 ∧
    0x40FF#16 &&& 0xFF00#16 = 0x4000#16 ∧ 0x60FF#16 &&& 0xFF00#16 = 0x6000#16 ∧ 0x901F#16 &&& 0xFFE0#16 = 0x9000#16 ∧
    0xA0FF#16 &&& 0xFF00#16 = 0xA000#16 ∧ (0x0FFF#16).extractLsb' 12 4 = 0x0#4 ∧ (0xD000#16).extractLsb' 12 4 = 0xD#4 ∧
    (0xE000#16).extractLsb' 12 4 = 0xE#4 ∧ (0xFFFF#16).extractLsb' 12 4 = 0xF#4 := by decide

/-- IllegalWordsAnswerIllAndChangeNothing and ErrorOutcomesAndTheirPriority (first clause). -/
theorem witness_illegal_word :
    (st 0b111 3 0b11 2 1 [0x9020#16]).inputs = [.command 0x9020#16] ∧ decode 0x9020#16 = .error .symbolTooWide := by decide

/-- StepRunsTheDecodedCommand and EveryWordCompletesWithOneResponse. -/
theorem witness_legal_word :
    (st 0 0 0 0 0 [0x60F8#16]).inputs = [.command 0x60F8#16] ∧ decode 0x60F8#16 = .ok (.encByte 0xF8#8) := by decide

/-- FetchWordRunsTheTableInstruction, with all bits and with fewer. -/
theorem witness_table_word :
    decodeTableWord 16 0x901F = some (.decSym 31#5) ∧ decodeTableWord 15 0x4012 = some (.digit 18#8) := by decide

/-- NothingPresentedNothingChanges and ResetIsBothInitsWithoutAToken. -/
theorem witness_inputs :
    State.reset.inputs = [] ∧ ({ st 1 1 1 1 1 [] with inputs := [.reset] } : State).inputs = [.reset] := by decide

/-- AlphabetContent, CanonicalizationTableContent, TableLaws and the lookups' corner cases: a canonical letter, an alias,
an invalid character, the edges of the ranges. -/
theorem witness_characters :
    canonRom 0x6F#8 ≠ 0x00#8 ∧ alphabet 10#5 = 0x41#8 ∧ canonRom 0x41#8 = alphabet 10#5 ∧ canonRom 0x80#8 = 0x00#8 ∧
    (31#8).toNat < 32 ∧ 32 ≤ (32#8).toNat ∧ valueRom 0x80#8 = 0xFF#8 ∧ canonRom 0x61#8 = 0x41#8 := by decide

/-- CanonGivesTheCanonicalCharacter's alias clause: `o` is valid and no member of the alphabet. -/
theorem witness_alias : canonRom 0x6F#8 ≠ 0x00#8 ∧ ∀ v : Symbol, alphabet v ≠ 0x6F#8 := by decide

/-- OperandRow and PlainRow: words their second clauses speak of. -/
theorem witness_bad_rows :
    decode (0x6#4 ++ 0xF#4 ++ 0#8) = .error .reservedBits ∧ decode (0x7#4 ++ 0#4 ++ 0x80#8) = .error .operandNotZero := by
  decide

/-- EncByteEmitsEveryCompleteGroup, EncByteConservesTheBitStream, EncFlushEmitsThePaddedDigit, StatusComposesTheWord:
legal states at each count, with every pending bit set. -/
theorem witness_encoder_counts :
    (st 0 0 0 0 0 []).Legal ∧ (st 0b1 1 0 0 0 []).Legal ∧ (st 0b11 2 0 0 0 []).Legal ∧ (st 0b111 3 0 0 0 []).Legal ∧
    (st 0b1111 4 0 0 0 []).Legal := by decide

/-- DecSymEmitsAByteWhenEightBitsAreThere and DecFlushEmitsThePaddedByteAndTheVerdict: legal states at each count. -/
theorem witness_decoder_counts :
    (st 0 0 0 0 1 []).Legal ∧ (st 0 0 0b1 1 0 []).Legal ∧ (st 0 0 0b11 2 0 []).Legal ∧ (st 0 0 0b111 3 0 []).Legal ∧
    (st 0 0 0b1111 4 0 []).Legal ∧ (st 0 0 0b11111 5 0 []).Legal ∧ (st 0 0 0b111111 6 0 []).Legal ∧
    (st 0 0 0b1111111 7 1 []).Legal := by decide

/-- EncByteEmitsEveryCompleteGroup's last two clauses: a legal state steps, and a zero byte meets clear pending bits at
count 4. -/
theorem witness_encByte_zero :
    view (exec (.encByte 0#8) (st 0 4 0 0 0 [])) = some ((0, 2), (0, 0, 0), [[.D 0#5 0x30#8, .D 0#5 0x30#8]]) := by decide

/-- DecSymEmitsAByteWhenEightBitsAreThere's last clause, and DecChar's two cases. -/
theorem witness_decSym_and_decChar :
    view (exec (.decSym 0#5) (st 0 0 0b111 3 0 [])) = some ((0, 0), (0, 0, 0), [[.B 0xE0#8]]) ∧
    canonRom 0x7A#8 ≠ 0x00#8 ∧ canonRom 0x00#8 = 0x00#8 := by decide

/-- StatusComposesTheWord's legal clause: the last example of R170. -/
theorem witness_status :
    (st 0b111 3 0 0 1 []).Legal ∧
    view (exec .status (st 0b111 3 0 0 1 [])) = some ((0b111, 3), (0, 0, 1), [[.W 0x38#8]]) := by decide

/-- SubBlocksShareNoState: a command of each block that answers a next state, and two different states that agree on the
encoder, on the decoder, and on what STATUS reads. -/
theorem witness_sub_blocks :
    [Instr.canon 0#8, .encFlush, .decFlush, .status].map subBlock = [.lut, .encoder, .decoder, .statusRead] ∧
    ([Instr.canon 0#8, .encFlush, .decFlush, .status].all fun i => (nextOf (exec i .reset)).isSome) = true ∧
    (st 1 1 1 1 1 []).encAcc = (st 1 1 0 0 0 []).encAcc ∧ (st 1 1 1 1 1 []).decErr = (st 0 0 1 1 1 []).decErr ∧
    (st 1 1 1 1 1 []).encCnt = (st 0 1 0 1 1 []).encCnt := by decide

/-- EncoderAndDecoderCommandsCommute. -/
theorem witness_commute : subBlock (.encByte 0xFF#8) = .encoder ∧ subBlock (.decSym 31#5) = .decoder := by decide

/-- DecErrIsStickyAndReadByFlushAndStatus: steps that set, clear and keep the flag, a reset, and a command that does not
read it. -/
theorem witness_decErr :
    ((nextOf (step (st 0 0 0 0 0 [0xA055#16]))).map State.decErr = some 1#1) ∧
    ((nextOf (step (st 0 0 0 0 1 [0x8000#16]))).map State.decErr = some 0#1) ∧
    ((nextOf (step (st 0 0 0 0 1 [0x9000#16]))).map State.decErr = some 1#1) ∧
    ((nextOf (step { st 0 0 0 0 1 [] with inputs := [.reset] })).map State.decErr = some 0#1) ∧
    Instr.decSym 0#5 ≠ .decFlush ∧ Instr.decSym 0#5 ≠ .status := by decide

/-- EmittedDigitsAreCanonical: a digit token emitted. -/
theorem witness_digit_token :
    view (exec (.encByte 0xF8#8) .reset) = some ((0, 3), (0, 0, 0), [[.D 31#5 0x5A#8]]) := by decide

/-- ErrorOutcomesAndTheirPriority: a word of each outcome. -/
theorem witness_error_outcomes :
    errorOf 0xF000#16 = some .illegalCommand ∧ decode 0xF000#16 = .error .reservedOpcode ∧
    errorOf 0xA055#16 = some .invalidDigit ∧ decode 0xA055#16 = .ok (.decChar 0x55#8) ∧ canonRom 0x55#8 = 0x00#8 ∧
    errorOf 0xA05A#16 = none ∧ decode 0xA05A#16 = .ok (.decChar 0x5A#8) := by decide

/-- EveryStepKeepsRegistersLegal: a legal state with both engines busy whose step changes it. -/
theorem witness_legal_step :
    (st 0b1111 4 0b1111111 7 1 [0x60FF#16]).Legal ∧
    view (step (st 0b1111 4 0b1111111 7 1 [0x60FF#16])) =
      some ((0b11, 2), (0b1111111, 7, 1), [[.D 31#5 0x5A#8, .D 31#5 0x5A#8]]) := by decide

/-- EncodeJobEmitsEncodeOfItsBytes: an encode job with a decoder command and an illegal word among its words. -/
theorem witness_encode_job :
    (st 0 0 0b11 2 1 []).encCnt = 0#3 ∧
    commandsOf .encoder [0x60F8#16, 0xA05A#16, 0xF000#16, 0x603E#16, 0x7000#16, 0xC000#16] = encJob [0xF8#8, 0x3E#8] := by
  decide

/-- DecodeJobEmitsDecodeOfItsSymbols: a symbol and an alias character, with other words before and after the flush. -/
theorem witness_decode_job :
    (st 0b1 1 0 0 0 []).decCnt = 0#3 ∧ (st 0b1 1 0 0 0 []).decErr = 0#1 ∧
    (commandsOf .decoder [0x901F#16, 0x60FF#16, 0xA06F#16]).map carriedSymbol = [31#5, 0#5].map some ∧
    commandsOf .decoder [0xC000#16, 0x0000#16] = [] := by decide

/-- CharacterJobValidatesAndDecodes: strings of both verdicts. -/
theorem witness_character_job :
    (∀ c ∈ [0x7A#8, 0x6F#8], canonRom c ≠ 0x00#8) ∧ ∃ c ∈ [0x5A#8, 0x55#8], canonRom c = 0x00#8 := by decide

/-- VerdictSaysWhetherACharacterWasInvalid: words of both verdicts, none DEC.INIT or DEC.FLUSH. -/
theorem witness_verdict_invalid :
    (∀ w ∈ [0x901F#16, 0xA055#16], decode w ≠ .ok .decInit ∧ decode w ≠ .ok .decFlush) ∧
    decode 0xA055#16 = .ok (.decChar 0x55#8) ∧ canonRom 0x55#8 = 0x00#8 := by
  refine ⟨fun w hw => ?_, by decide, by decide⟩
  simp only [List.mem_cons, List.not_mem_nil, or_false] at hw
  rcases hw with rfl | rfl <;> decide

theorem witness_verdict_valid :
    (∀ w ∈ [0x901F#16], decode w ≠ .ok .decInit ∧ decode w ≠ .ok .decFlush) ∧
    ∀ w ∈ [0x901F#16], ∀ c : Byte, decode w = .ok (.decChar c) → canonRom c ≠ 0x00#8 := by
  have hd : decode 0x901F#16 = .ok (.decSym 31#5) := by decide
  refine ⟨fun w hw => ?_, fun w hw c hc => ?_⟩
  · cases List.mem_singleton.mp hw
    decide
  · cases List.mem_singleton.mp hw
    rw [hd] at hc
    cases hc

/-- EncodeJobsConcatenate and the two round trips: both engines between jobs, both length cases. -/
theorem witness_round_trips :
    (st 0 0 0 0 0 []).encCnt = 0#3 ∧ (st 0 0 0 0 0 []).decCnt = 0#3 ∧ (st 0 0 0 0 0 []).decErr = 0#1 ∧
    [1#8, 2#8, 3#8, 4#8, 5#8].length % 5 = 0 ∧ [1#8].length % 5 ≠ 0 := by decide

end Sys2Proof.Tests
end

section
/-! Proofs about the scope rules (00_scope.md): the step that finds no input. -/

open Sys2Proof.Machine

/-- The step equation for an empty stream, beside `step_cases` (log 1). -/
theorem Sys2Proof.Machine.step_of_inputs_nil (s : State) (h : s.inputs = []) : step s = .next s := by
  simp only [step, fetch_nil s h, idle]

/-- Settles O10: the fetch finds no input, and the core idles. -/
theorem nothingPresentedNothingChanges : Obligations.NothingPresentedNothingChanges := by
  unfold Obligations.NothingPresentedNothingChanges
  exact step_of_inputs_nil

end

section
/-! Proofs about the state (10_state.md): legal register values (R21, R23, R24), what each sub-block reads and writes
(R31), DEC_ERR (R25), and the conservation of the two bit streams (R41 to R43). -/

namespace Sys2Proof.Machine

/-! ### The step on each input (R49, R201, R232) -/

theorem step_of_reset {s : State} {rest : List HostInput} (h : s.inputs = .reset :: rest) :
    step s = .next (applyReset { s with inputs := rest }) := by
  simp only [step, fetch_cons s _ _ h]

theorem step_of_legal_word {s : State} {w : Word} {rest : List HostInput} {i : Instr}
    (h : s.inputs = .command w :: rest) (hd : decode w = .ok i) : step s = exec i { s with inputs := rest } := by
  simp only [step, fetch_cons s _ _ h, hd]

theorem step_of_illegal_word {s : State} {w : Word} {rest : List HostInput} {e : Illegal}
    (h : s.inputs = .command w :: rest) (hd : decode w = .error e) :
    step s = .next (raiseIllegal { s with inputs := rest }) := by
  simp only [step, fetch_cons s _ _ h, hd]

/-! ### DEC.CHAR's two cases (R145, R146) -/

/-- A character is invalid exactly when its canonical form is the sentinel (R104). -/
theorem charValid_eq_false_iff (c : Byte) : charValid c = false ↔ canonRom c = 0x00#8 := by
  simp [charValid]

theorem exec_decChar_valid {c : Byte} (hc : charValid c = true) (s : State) :
    exec (.decChar c) s = .next (appendSymbol (charSymbol c) s) := by
  simp only [exec, execDecChar, hc, if_true]

theorem exec_decChar_invalid {c : Byte} (hc : charValid c = false) (s : State) :
    exec (.decChar c) s = .next ((s.writeDecErr errSet).respond []) := by
  simp only [exec, execDecChar, hc, Bool.false_eq_true, if_false]

/-! ### Legal register values (R21) -/

/-- Keeping the low k bits and cutting to a register that holds them is reduction modulo 2^k (R124, R144). -/
theorem setWidth_lowBits_toNat {m : Nat} {k n : Nat} (v : BitVec m) (hkn : k ≤ n) (hnm : n ≤ m) :
    ((lowBits k v).setWidth n).toNat = v.toNat % 2 ^ k := by
  have hlt : v.toNat % 2 ^ k < 2 ^ n :=
    Nat.lt_of_lt_of_le (Nat.mod_lt _ (Nat.two_pow_pos k)) (Nat.pow_le_pow_right (by omega) hkn)
  rw [BitVec.toNat_setWidth, lowBits_toNat k v (by omega), Nat.mod_eq_of_lt hlt]

theorem appendByte_encCnt_toNat (b : Byte) {s : State} (h : s.encCnt.toNat ≤ 4) :
    (appendByte b s).encCnt.toNat = encLeft (s.encCnt.toNat + 8) := by
  have hleft := encLeft_le (s.encCnt.toNat + 8) (by omega) (by omega)
  simp only [appendByte_eq, BitVec.toNat_ofNat]
  omega

theorem appendSymbol_decCnt_toNat (x : Symbol) (s : State) :
    (appendSymbol x s).decCnt.toNat = decLeft (s.decCnt.toNat + 5) := by
  have hleft := decLeft_le (s.decCnt.toNat + 5) (by omega)
  simp only [appendSymbol_eq, BitVec.toNat_ofNat]
  omega

theorem appendByte_legal (b : Byte) {s : State} (h : s.Legal) : (appendByte b s).Legal := by
  obtain ⟨hcnt, -, hdec⟩ := h
  have hleft := encLeft_le (s.encCnt.toNat + 8) (by omega) (by omega)
  refine ⟨?_, ?_, hdec⟩ <;> rw [appendByte_encCnt_toNat b hcnt]
  · exact hleft
  · rw [appendByte_eq, setWidth_lowBits_toNat _ hleft (by omega)]
    exact Nat.mod_lt _ (Nat.two_pow_pos _)

theorem appendSymbol_legal (x : Symbol) {s : State} (h : s.Legal) : (appendSymbol x s).Legal := by
  obtain ⟨hcnt, henc, -⟩ := h
  have hleft := decLeft_le (s.decCnt.toNat + 5) (by omega)
  refine ⟨hcnt, henc, ?_⟩
  rw [appendSymbol_decCnt_toNat, appendSymbol_eq, setWidth_lowBits_toNat _ hleft (by omega)]
  exact Nat.mod_lt _ (Nat.two_pow_pos _)

theorem clearEncoder_legal {s : State} (h : s.Legal) : (s.writeEncoder 0#4 0#3).Legal := by
  obtain ⟨-, -, hdec⟩ := h
  exact ⟨by simp, by simp, hdec⟩

theorem clearDecoder_legal {s : State} (h : s.Legal) : (s.writeDecoder 0#7 0#3).Legal := by
  obtain ⟨hcnt, henc, -⟩ := h
  exact ⟨hcnt, henc, by simp⟩

/-- Legality speaks neither of DEC_ERR nor of the responses, so only the packing steps and the clears need an argument. -/
theorem exec_legal (i : Instr) {s t : State} (h : s.Legal) (ht : exec i s = .next t) : t.Legal := by
  cases i with
  | canon _ | isvalid _ | value _ | digit _ | status =>
    cases ht
    exact h
  | encInit | encFlush =>
    cases ht
    exact clearEncoder_legal (s := s) h
  | encByte b =>
    cases ht
    exact appendByte_legal b h
  | decInit | decFlush =>
    cases ht
    exact clearDecoder_legal (s := s) h
  | decSym x =>
    cases ht
    exact appendSymbol_legal x h
  | decChar c =>
    cases hc : charValid c with
    | true =>
      rw [exec_decChar_valid hc] at ht
      cases ht
      exact appendSymbol_legal _ h
    | false =>
      rw [exec_decChar_invalid hc] at ht
      cases ht
      exact h

theorem reset_legal : State.reset.Legal := by decide

theorem applyReset_legal (s : State) : (applyReset s).Legal := by
  rw [applyReset_eq]
  exact reset_legal

/-! ### What each sub-block reads and writes (R31)

In each lemma the written values and the response are chosen before the state s, so they depend only on the registers
in which s and s₀ agree. -/

/-- A LUT command and STATUS only respond; a LUT command's response depends on no register. -/
theorem exec_readOnly {i : Instr} (hi : subBlock i = .lut ∨ subBlock i = .statusRead) (s₀ : State) :
    ∃ r, ∀ s : State,
      (subBlock i = .statusRead → s.encCnt = s₀.encCnt ∧ s.decErr = s₀.decErr ∧ s.decCnt = s₀.decCnt) →
      exec i s = .next (s.respond r) := by
  cases i with
  | canon _ | isvalid _ | value _ | digit _ => exact ⟨_, fun _ _ => rfl⟩
  | status =>
    refine ⟨[.W (statusWord s₀.encCnt s₀.decErr s₀.decCnt)], fun s hagree => ?_⟩
    obtain ⟨henc, herr, hdec⟩ := hagree rfl
    simp only [exec, execStatus, henc, herr, hdec]
  | _ => simp [subBlock] at hi

/-- An encoder command writes the encoder and responds, by the encoder's registers alone. -/
theorem exec_encoder {i : Instr} (hi : subBlock i = .encoder) (s₀ : State) :
    ∃ acc cnt r, ∀ s : State, s.encAcc = s₀.encAcc → s.encCnt = s₀.encCnt →
      exec i s = .next ((s.writeEncoder acc cnt).respond r) := by
  cases i with
  | encInit => exact ⟨_, _, _, fun _ _ _ => rfl⟩
  | encByte b =>
    refine ⟨(appendByte b s₀).encAcc, (appendByte b s₀).encCnt,
      (encGroups (encWindow s₀.encAcc b) (s₀.encCnt.toNat + 8)).map digitToken, fun s hacc hcnt => ?_⟩
    simp only [exec, execEncByte, appendByte, hacc, hcnt, State.respond_encAcc, State.respond_encCnt,
      State.writeEncoder_encAcc, State.writeEncoder_encCnt]
  | encFlush =>
    refine ⟨0#4, 0#3, flushDigits s₀, fun s hacc hcnt => ?_⟩
    simp only [exec, execEncFlush, flushDigits, hacc, hcnt]
  | _ => cases hi

/-- The packing step that DEC.SYM and DEC.CHAR share depends on the decoder's registers alone. -/
theorem appendSymbol_of_agree (x : Symbol) {s s₀ : State} (hacc : s.decAcc = s₀.decAcc) (hcnt : s.decCnt = s₀.decCnt)
    (herr : s.decErr = s₀.decErr) :
    appendSymbol x s =
      ((s.writeDecoder (appendSymbol x s₀).decAcc (appendSymbol x s₀).decCnt).writeDecErr s₀.decErr).respond
        (decBytes (decWindow s₀.decAcc x) (s₀.decCnt.toNat + 5)) := by
  rw [← hacc, ← hcnt, ← herr, appendSymbol_eq x s₀, ← hacc, ← hcnt]
  rfl

/-- A decoder command writes the decoder and DEC_ERR and responds, by the decoder's registers and DEC_ERR alone. -/
theorem exec_decoder {i : Instr} (hi : subBlock i = .decoder) (s₀ : State) :
    ∃ acc cnt err r, ∀ s : State, s.decAcc = s₀.decAcc → s.decCnt = s₀.decCnt → s.decErr = s₀.decErr →
      exec i s = .next (((s.writeDecoder acc cnt).writeDecErr err).respond r) := by
  cases i with
  | decInit => exact ⟨_, _, _, _, fun _ _ _ _ => rfl⟩
  | decSym x =>
    exact ⟨_, _, _, _, fun s hacc hcnt herr => congrArg Host.Outcome.next (appendSymbol_of_agree x hacc hcnt herr)⟩
  | decChar c =>
    cases hc : charValid c with
    | true =>
      exact ⟨_, _, _, _, fun s hacc hcnt herr => (exec_decChar_valid hc s).trans
        (congrArg Host.Outcome.next (appendSymbol_of_agree (charSymbol c) hacc hcnt herr))⟩
    | false =>
      refine ⟨s₀.decAcc, s₀.decCnt, errSet, [], fun s hacc hcnt _ => ?_⟩
      rw [exec_decChar_invalid hc, ← hacc, ← hcnt]
      rfl
  | decFlush =>
    refine ⟨0#7, 0#3, errClear, flushBytes s₀ ++ [.W (verdictWord s₀.decErr)], fun s hacc hcnt herr => ?_⟩
    simp only [exec, execDecFlush, flushBytes, hacc, hcnt, herr]
  | _ => cases hi

/-! ### DEC_ERR (R25) -/

theorem exec_decChar_decErr {c : Byte} {s t : State} (h : exec (.decChar c) s = .next t) :
    t.decErr = if canonRom c = 0x00#8 then 1#1 else s.decErr := by
  cases hc : charValid c with
  | true =>
    rw [exec_decChar_valid hc] at h
    cases h
    simp [← charValid_eq_false_iff, hc, appendSymbol_eq]
  | false =>
    rw [exec_decChar_invalid hc] at h
    cases h
    simp [← charValid_eq_false_iff, hc, errSet]

/-- Only DEC.CHAR, DEC.INIT and DEC.FLUSH write DEC_ERR. -/
theorem exec_keeps_decErr {i : Instr} {s t : State} (hchar : ∀ c, i ≠ .decChar c) (hinit : i ≠ .decInit)
    (hflush : i ≠ .decFlush) (h : exec i s = .next t) : t.decErr = s.decErr := by
  cases i with
  | decChar c => exact absurd rfl (hchar c)
  | decInit => exact absurd rfl hinit
  | decFlush => exact absurd rfl hflush
  | _ =>
    cases h
    rfl

/-- No command but DEC.FLUSH and STATUS reads DEC_ERR: started with another value it does the same to all else. -/
theorem exec_ignores_decErr {i : Instr} (hflush : i ≠ .decFlush) (hstatus : i ≠ .status) (s : State) (e : BitVec 1) :
    ∃ t u : State, exec i s = .next t ∧ exec i { s with decErr := e } = .next u ∧ u = { t with decErr := u.decErr } := by
  cases i with
  | decFlush => exact absurd rfl hflush
  | status => exact absurd rfl hstatus
  | decChar c =>
    cases hc : charValid c with
    | true => exact ⟨_, _, exec_decChar_valid hc s, exec_decChar_valid hc _, rfl⟩
    | false => exact ⟨_, _, exec_decChar_invalid hc s, exec_decChar_invalid hc _, rfl⟩
  | _ => exact ⟨_, _, rfl, rfl, rfl⟩

/-- Bit 3 of the status word (R26). -/
theorem statusWord_decErr (encCnt decCnt : BitVec 3) (decErr : BitVec 1) :
    (statusWord encCnt decErr decCnt).extractLsb' 3 1 = decErr := by
  revert encCnt decCnt decErr
  decide

/-! ### Bit streams (R41 to R43) -/

theorem pendingBits_congr {m n k : Nat} {v : BitVec m} {u : BitVec n} (h : ∀ i < k, v.getLsbD i = u.getLsbD i) :
    pendingBits k v = pendingBits k u :=
  List.map_congr_left fun i hi => h _ (by have := List.mem_range.mp hi; omega)

/-- All bits of a value are pending bits of it. -/
theorem bitsOf_eq_pendingBits {w : Nat} (v : BitVec w) : bitsOf v = pendingBits w v := by
  refine List.map_congr_left fun i hi => ?_
  have hi := List.mem_range.mp hi
  simp [BitVec.getMsbD, hi]

/-- The highest n of n + lo pending bits are the field above bit lo, and come first. -/
theorem pendingBits_add {m : Nat} (n lo : Nat) (v : BitVec m) :
    pendingBits (n + lo) v = bitsOf (slice lo n v) ++ pendingBits lo v := by
  rw [bitsOf_eq_pendingBits]
  simp only [pendingBits, List.range_add, List.map_append, List.map_map]
  congr 1 <;> refine List.map_congr_left fun i hi => ?_
  · have hi := List.mem_range.mp hi
    have hpos : n + lo - 1 - i = lo + (n - 1 - i) := by omega
    have hfield : n - 1 - i < n := by omega
    simp [slice, hpos, hfield]
  · simp only [Function.comp]
    congr 1
    omega

/-- The first n of k pending bits are the field they form, the others stay pending. -/
theorem pendingBits_of_le {m n k : Nat} (h : n ≤ k) (v : BitVec m) :
    pendingBits k v = bitsOf (slice (k - n) n v) ++ pendingBits (k - n) v := by
  rw [← pendingBits_add, Nat.add_sub_cancel' h]

/-- What joins an engine's window: k pending bits of the accumulator, then all bits of the operand (R124, R144). -/
theorem pendingBits_window {m w n : Nat} (acc : BitVec m) (x : BitVec w) (k : Nat) (h : m + w ≤ n) :
    pendingBits (k + w) ((acc.setWidth n <<< w) ||| x.setWidth n) = pendingBits k acc ++ bitsOf x := by
  rw [pendingBits_add, bitsOf_eq_pendingBits, bitsOf_eq_pendingBits]
  congr 1 <;> refine pendingBits_congr fun i hi => ?_
  · have hacc : acc.getLsbD i = true → i < m := BitVec.lt_of_getLsbD
    have hx : x.getLsbD (w + i) = false := BitVec.getLsbD_of_ge _ _ (by omega)
    simp only [slice, BitVec.getLsbD_extractLsb', BitVec.getLsbD_or, BitVec.getLsbD_shiftLeft,
      BitVec.getLsbD_setWidth, hx]
    grind
  · simp only [BitVec.getLsbD_or, BitVec.getLsbD_shiftLeft, BitVec.getLsbD_setWidth]
    grind

/-- R124's mask keeps the bits below k. -/
theorem lowBits_getLsbD {m : Nat} (k : Nat) (v : BitVec m) (i : Nat) :
    (lowBits k v).getLsbD i = (decide (i < k) && v.getLsbD i) := by
  have hv : v.getLsbD i = true → i < m := BitVec.lt_of_getLsbD
  simp only [lowBits, BitVec.getLsbD_and, BitVec.getLsbD_ofNat, Nat.testBit_two_pow_sub_one]
  grind

/-- Cutting the accumulator to its k pending bits loses none of them. -/
theorem pendingBits_setWidth_lowBits {m n k : Nat} (v : BitVec m) (hkn : k ≤ n) :
    pendingBits k ((lowBits k v).setWidth n) = pendingBits k v := by
  refine pendingBits_congr fun i hi => ?_
  simp [lowBits_getLsbD, hi, Nat.lt_of_lt_of_le hi hkn]

/-- The digits cut from k bits carry all but the bits left over, in order (R124). -/
theorem pendingBits_encGroups (a : BitVec 12) {k : Nat} (h : 5 ≤ k) :
    pendingBits k a = (encGroups a k).flatMap bitsOf ++ pendingBits (encLeft k) a := by
  unfold encGroups encLeft
  rw [pendingBits_of_le h]
  split
  next h5 =>
    rw [pendingBits_of_le h5, Nat.sub_sub]
    simp
  next => simp

/-- The byte cut from k bits carries all but the bits left over, in order (R144). -/
theorem pendingBits_decBytes (a : BitVec 12) (k : Nat) :
    pendingBits k a = (bytesOf (decBytes a k)).flatMap bitsOf ++ pendingBits (decLeft k) a := by
  unfold decBytes decLeft
  split
  next h8 =>
    rw [pendingBits_of_le h8]
    simp [bytesOf]
  next => simp [bytesOf]

/-- The symbols of digit tokens are those they were made of. -/
theorem symbolsOf_map_digitToken (xs : List Symbol) : symbolsOf (xs.map digitToken) = xs := by
  induction xs with
  | nil => rfl
  | cons x xs ih => simpa [symbolsOf, digitToken] using ih

end Sys2Proof.Machine

open Sys2Proof Sys2Proof.Machine

/-- Settles O36: the registers that reset leaves are evaluated. -/
theorem resetRegistersAreLegal : Obligations.ResetRegistersAreLegal := by
  unfold Obligations.ResetRegistersAreLegal
  exact reset_legal

/-- Settles O35, by the four things a step can be. -/
theorem everyStepKeepsRegistersLegal : Obligations.EveryStepKeepsRegistersLegal := by
  unfold Obligations.EveryStepKeepsRegistersLegal
  intro s t hlegal hstep
  rcases step_cases s with ⟨-, hs⟩ | ⟨rest, -, hs⟩ | ⟨w, rest, i, -, -, hs⟩ | ⟨w, rest, e, -, -, hs⟩ <;>
    rw [hs] at hstep
  · cases hstep
    exact hlegal
  · cases hstep
    exact applyReset_legal _
  · exact exec_legal i (s := { s with inputs := rest }) hlegal hstep
  · cases hstep
    exact hlegal

/-- Settles O29, by the values each sub-block's commands write and respond. -/
theorem subBlocksShareNoState : Obligations.SubBlocksShareNoState := by
  unfold Obligations.SubBlocksShareNoState
  refine ⟨fun i s t ht => ⟨fun hb => ?_, fun hb => ?_, fun hb => ?_⟩, fun i s s' henc hdec hstat => ?_⟩
  · obtain ⟨r, h⟩ := exec_readOnly hb s
    rw [h s fun _ => ⟨rfl, rfl, rfl⟩] at ht
    cases ht
    rfl
  · obtain ⟨acc, cnt, r, h⟩ := exec_encoder hb s
    rw [h s rfl rfl] at ht
    cases ht
    rfl
  · obtain ⟨acc, cnt, err, r, h⟩ := exec_decoder hb s
    rw [h s rfl rfl rfl] at ht
    cases ht
    rfl
  · cases hb : subBlock i with
    | lut | statusRead =>
      obtain ⟨r, h⟩ := exec_readOnly (i := i) (by simp [hb]) s'
      exact ⟨_, _, r, h s hstat, h s' fun _ => ⟨rfl, rfl, rfl⟩, rfl, rfl, nofun, nofun⟩
    | encoder =>
      obtain ⟨hacc, hcnt⟩ := henc hb
      obtain ⟨acc, cnt, r, h⟩ := exec_encoder hb s'
      exact ⟨_, _, r, h s hacc hcnt, h s' rfl rfl, rfl, rfl, fun _ => ⟨rfl, rfl⟩, nofun⟩
    | decoder =>
      obtain ⟨hacc, hcnt, herr⟩ := hdec hb
      obtain ⟨acc, cnt, err, r, h⟩ := exec_decoder hb s'
      exact ⟨_, _, r, h s hacc hcnt herr, h s' rfl rfl rfl, rfl, rfl, nofun, fun _ => ⟨rfl, rfl, rfl⟩⟩

/-- Settles O30: neither command writes a register the other reads. -/
theorem encoderAndDecoderCommandsCommute : Obligations.EncoderAndDecoderCommandsCommute := by
  unfold Obligations.EncoderAndDecoderCommandsCommute
  intro i j s hi hj
  obtain ⟨ea, ec, r, hexecI⟩ := exec_encoder hi s
  obtain ⟨da, dc, e, q, hexecJ⟩ := exec_decoder hj s
  exact ⟨_, _, _, _, r, q, hexecI s rfl rfl, hexecJ _ rfl rfl rfl, hexecJ s rfl rfl rfl, hexecI _ rfl rfl,
    by simp, by simp, rfl⟩

/-- Settles O31, by the step on each input and by what each command does to DEC_ERR and for it. -/
theorem decErrIsStickyAndReadByFlushAndStatus : Obligations.DecErrIsStickyAndReadByFlushAndStatus := by
  unfold Obligations.DecErrIsStickyAndReadByFlushAndStatus
  refine ⟨fun s t w rest hin hstep => ?_, fun s t rest hin hstep => ?_, fun i s e hflush hstatus => ?_,
    fun s => ⟨_, flushBytes s, rfl, rfl⟩, fun s => ⟨_, _, rfl, rfl, statusWord_decErr _ _ _⟩⟩
  · cases hd : decode w with
    | error e =>
      rw [step_of_illegal_word hin hd] at hstep
      cases hstep
      rfl
    | ok i =>
      rw [step_of_legal_word hin hd] at hstep
      cases i with
      | decChar c => exact exec_decChar_decErr (s := { s with inputs := rest }) hstep
      | decInit | decFlush =>
        cases hstep
        rfl
      | _ =>
        exact exec_keeps_decErr (s := { s with inputs := rest }) (by simp) (by simp) (by simp) hstep
  · rw [step_of_reset hin] at hstep
    cases hstep
    rfl
  · exact exec_ignores_decErr hflush hstatus s e

/-- Settles O37: the window holds the pending bits and then the byte's; it is cut into the digits and the bits left. -/
theorem encByteConservesTheBitStream : Obligations.EncByteConservesTheBitStream := by
  unfold Obligations.EncByteConservesTheBitStream
  intro s b hcnt
  refine ⟨appendByte b s, _, rfl, rfl, ?_⟩
  have hleft := encLeft_le (s.encCnt.toNat + 8) (by omega) (by omega)
  calc pendingBits s.encCnt.toNat s.encAcc ++ bitsOf b
      = pendingBits (s.encCnt.toNat + 8) (encWindow s.encAcc b) := (pendingBits_window _ _ _ (by omega)).symm
    _ = (encGroups (encWindow s.encAcc b) (s.encCnt.toNat + 8)).flatMap bitsOf ++
          pendingBits (encLeft (s.encCnt.toNat + 8)) (encWindow s.encAcc b) := pendingBits_encGroups _ (by omega)
    _ = _ := by
      rw [symbolsOf_map_digitToken, appendByte_encCnt_toNat b hcnt, appendByte_eq,
        pendingBits_setWidth_lowBits _ hleft]

/-- Settles O38: the window holds the pending bits and then the symbol's; it is cut into the byte, if any, and the bits
left. -/
theorem decSymConservesTheBitStream : Obligations.DecSymConservesTheBitStream := by
  unfold Obligations.DecSymConservesTheBitStream
  intro s x
  refine ⟨appendSymbol x s, _, rfl, rfl, ?_⟩
  have hleft := decLeft_le (s.decCnt.toNat + 5) (by omega)
  calc pendingBits s.decCnt.toNat s.decAcc ++ bitsOf x
      = pendingBits (s.decCnt.toNat + 5) (decWindow s.decAcc x) := (pendingBits_window _ _ _ (by omega)).symm
    _ = (bytesOf (decBytes (decWindow s.decAcc x) (s.decCnt.toNat + 5))).flatMap bitsOf ++
          pendingBits (decLeft (s.decCnt.toNat + 5)) (decWindow s.decAcc x) := pendingBits_decBytes _ _
    _ = _ := by
      rw [appendSymbol_decCnt_toNat, appendSymbol_eq, pendingBits_setWidth_lowBits _ hleft]

end

section
/-! Proofs about the command interface (20_memory.md): a step performs one whole command (R47, R49), and the kinds and
number of tokens in its response (R46, R66). -/

namespace Sys2Proof.Machine

/-! ### The tokens of the engines' responses -/

theorem encGroups_digits_one_or_two (a : BitVec 12) (k : Nat) :
    ∃ x cx, (encGroups a k).map digitToken = [.D x cx] ∨ ∃ y cy, (encGroups a k).map digitToken = [.D x cx, .D y cy] := by
  unfold encGroups
  split
  next => exact ⟨_, _, .inr ⟨_, _, rfl⟩⟩
  next => exact ⟨_, _, .inl rfl⟩

theorem decBytes_none_or_one (a : BitVec 12) (k : Nat) : decBytes a k = [] ∨ ∃ b, decBytes a k = [.B b] := by
  unfold decBytes
  split
  next => exact .inr ⟨_, rfl⟩
  next => exact .inl rfl

theorem flushDigits_none_or_one (s : State) : flushDigits s = [] ∨ ∃ x cx, flushDigits s = [.D x cx] := by
  unfold flushDigits
  split
  next => exact .inr ⟨_, _, rfl⟩
  next => exact .inl rfl

/-- The verdict word stands alone or after one byte (R67). -/
theorem flushBytes_append_word (s : State) (w : Byte) :
    flushBytes s ++ [.W w] = [.W w] ∨ ∃ b, flushBytes s ++ [.W w] = [.B b, .W w] := by
  unfold flushBytes
  split
  next => exact .inr ⟨_, rfl⟩
  next => exact .inl rfl

/-! ### The response of each command -/

/-- The responses a command can give, by the kinds and number of their tokens (R46, R66). -/
def Emits : Instr → List Token → Prop
  | .canon _, r | .isvalid _, r | .value _, r | .digit _, r | .status, r => ∃ w, r = [.W w]
  | .encInit, r | .decInit, r => r = []
  | .encByte _, r => ∃ x cx, r = [.D x cx] ∨ ∃ y cy, r = [.D x cx, .D y cy]
  | .encFlush, r => r = [] ∨ ∃ x cx, r = [.D x cx]
  | .decSym _, r | .decChar _, r => r = [] ∨ ∃ b, r = [.B b]
  | .decFlush, r => ∃ w, r = [.W w] ∨ ∃ b, r = [.B b, .W w]

/-- The response a command is seen to add, in any state, is one of its responses. -/
theorem emits_of_exec {i : Instr} {s t : State} {r : List Token} (hexec : exec i s = .next t)
    (hresp : t.responses = s.responses ++ [r]) : Emits i r := by
  -- the response added is the operation's own
  have hadded {q : List Token} (hq : t.responses = s.responses ++ [q]) : q = r := by
    simpa using hq.symm.trans hresp
  cases i with
  | canon _ | isvalid _ | value _ | digit _ | status =>
    cases hexec
    exact ⟨_, (hadded rfl).symm⟩
  | encInit | decInit =>
    cases hexec
    exact (hadded rfl).symm
  | encByte b =>
    cases hexec
    exact hadded rfl ▸ encGroups_digits_one_or_two _ _
  | encFlush =>
    cases hexec
    exact hadded rfl ▸ flushDigits_none_or_one s
  | decSym x =>
    cases hexec
    exact hadded rfl ▸ decBytes_none_or_one _ _
  | decChar c =>
    cases hc : charValid c with
    | true =>
      rw [exec_decChar_valid hc] at hexec
      cases hexec
      exact hadded rfl ▸ decBytes_none_or_one _ _
    | false =>
      rw [exec_decChar_invalid hc] at hexec
      cases hexec
      exact .inl (hadded rfl).symm
  | decFlush =>
    cases hexec
    exact hadded rfl ▸ ⟨_, flushBytes_append_word s _⟩

/-- No command responds with more than two tokens. -/
theorem Emits.length_le_two {i : Instr} {r : List Token} (h : Emits i r) : r.length ≤ 2 := by
  cases i with
  | canon _ | isvalid _ | value _ | digit _ | status =>
    obtain ⟨w, rfl⟩ := h
    simp
  | encInit | decInit =>
    cases h
    simp
  | encByte _ => obtain ⟨x, cx, rfl | ⟨y, cy, rfl⟩⟩ := h <;> simp
  | encFlush => obtain rfl | ⟨x, cx, rfl⟩ := h <;> simp
  | decSym _ | decChar _ => obtain rfl | ⟨b, rfl⟩ := h <;> simp
  | decFlush => obtain ⟨w, rfl | ⟨b, rfl⟩⟩ := h <;> simp

end Sys2Proof.Machine

open Sys2Proof Sys2Proof.Machine

/-- Settles O7: the step equation for a word that decodes. -/
theorem stepRunsTheDecodedCommand : Obligations.StepRunsTheDecodedCommand := by
  unfold Obligations.StepRunsTheDecodedCommand
  intro s w rest i hin hd
  exact step_of_legal_word hin hd

/-- Settles O34: the one response each command adds is one of those `Emits` gives it. -/
theorem responseShapes : Obligations.ResponseShapes := by
  unfold Obligations.ResponseShapes
  intro i s
  obtain ⟨t, r, hexec, hresp, -⟩ := exec_next i s
  have hemits (j : Instr) (hj : i = j) : Emits j r := hj ▸ emits_of_exec hexec hresp
  refine ⟨t, r, hexec, hresp, fun hblock => ?_, fun hi => hi.elim (hemits .encInit) (hemits .decInit),
    fun b => hemits (.encByte b), hemits .encFlush, fun x => hemits (.decSym x), fun c => hemits (.decChar c),
    hemits .decFlush⟩
  cases i with
  | canon _ | isvalid _ | value _ | digit _ | status => exact hemits _ rfl
  | _ => simp [subBlock] at hblock

/-- Settles O9: a legal word is its command's `exec`, whose response has at most two tokens; an illegal one answers
`[ILL]`. -/
theorem everyWordCompletesWithOneResponse : Obligations.EveryWordCompletesWithOneResponse := by
  unfold Obligations.EveryWordCompletesWithOneResponse
  intro s w rest hin
  cases hd : decode w with
  | ok i =>
    obtain ⟨t, r, hexec, hresp, hinputs⟩ := exec_next i { s with inputs := rest }
    have hlen := (emits_of_exec hexec hresp).length_le_two
    exact ⟨t, r, (step_of_legal_word hin hd).trans hexec, hinputs, hresp, by omega⟩
  | error e => exact ⟨_, [.ILL], step_of_illegal_word hin hd, rfl, rfl, by simp⟩

end

section
/-! Proofs about the encoding (30_encoding.md): decoding and encoding are inverse (R60, R61, R65), the rows of the opcode
map (R61, R62), the illegal words (R63, R201) and the number of legal ones (R64). -/

namespace Sys2Proof

/-! ### The three kinds of row (R61 to R63) -/

theorem decodeOperand_eq_ok_iff {r : RawCommand} {f : Byte → Instr} {i : Instr} :
    decodeOperand r f = .ok i ↔ r.rsv = 0#4 ∧ f r.opd = i := by
  unfold decodeOperand
  split <;> simp [*]

theorem decodePlain_eq_ok_iff {r : RawCommand} {i j : Instr} :
    decodePlain r i = .ok j ↔ r.rsv = 0#4 ∧ r.opd = 0#8 ∧ i = j := by
  unfold decodePlain
  split
  next hr => split <;> simp [*]
  next hr => simp [hr]

theorem decodeSymbol_eq_ok_iff {r : RawCommand} {i : Instr} :
    decodeSymbol r = .ok i ↔
      r.rsv = 0#4 ∧ r.opd.extractLsb' 5 3 = 0#3 ∧ .decSym (r.opd.extractLsb' 0 5) = i := by
  unfold decodeSymbol
  split
  next hr => split <;> simp [*]
  next hr => simp [hr]

/-! ### Decoding and encoding (R60, R61, R65) -/

theorem decodeRaw_encodeRaw (i : Instr) : decodeRaw (encodeRaw i) = .ok i := by
  cases i with
  | decSym x =>
    revert x
    decide
  | _ => rfl

/-- In a row with an operand, the fields read are those the row's command encodes. -/
theorem encodeRaw_of_decodeOperand {r : RawCommand} {f : Byte → Instr} {i : Instr} {n : Nat} (hop : r.op.toNat = n)
    (hf : ∀ d, encodeRaw (f d) = ⟨BitVec.ofNat 4 n, 0#4, d⟩) (h : decodeOperand r f = .ok i) : encodeRaw i = r := by
  obtain ⟨hrsv, rfl⟩ := decodeOperand_eq_ok_iff.mp h
  rw [hf, ← hop, BitVec.ofNat_toNat, BitVec.setWidth_eq, ← hrsv]

theorem encodeRaw_of_decodePlain {r : RawCommand} {i j : Instr} {n : Nat} (hop : r.op.toNat = n)
    (hi : encodeRaw i = ⟨BitVec.ofNat 4 n, 0#4, 0#8⟩) (h : decodePlain r i = .ok j) : encodeRaw j = r := by
  obtain ⟨hrsv, hopd, rfl⟩ := decodePlain_eq_ok_iff.mp h
  rw [hi, ← hop, BitVec.ofNat_toNat, BitVec.setWidth_eq, ← hrsv, ← hopd]

theorem encodeRaw_of_decodeSymbol {r : RawCommand} {i : Instr} (hop : r.op.toNat = 0x9)
    (h : decodeSymbol r = .ok i) : encodeRaw i = r := by
  obtain ⟨hrsv, hhigh, rfl⟩ := decodeSymbol_eq_ok_iff.mp h
  have hopd : 0#3 ++ r.opd.extractLsb' 0 5 = r.opd := by
    rw [← hhigh]
    exact BitVec.extractLsb'_append_extractLsb'
  have hopcode : 0x9#4 = r.op := BitVec.eq_of_toNat_eq hop.symm
  rw [encodeRaw, hopcode, hopd, ← hrsv]

theorem encodeRaw_of_decodeRaw {r : RawCommand} {i : Instr} (h : decodeRaw r = .ok i) : encodeRaw i = r := by
  unfold decodeRaw at h
  split at h
  case h_1 hop | h_2 hop | h_3 hop | h_4 hop | h_6 hop | h_10 hop =>
    exact encodeRaw_of_decodeOperand hop (fun _ => rfl) h
  case h_5 hop | h_7 hop | h_8 hop | h_11 hop | h_12 hop => exact encodeRaw_of_decodePlain hop rfl h
  case h_9 hop => exact encodeRaw_of_decodeSymbol hop h
  case h_13 => cases h

theorem decode_encode (i : Instr) : decode (encode i) = .ok i := by
  rw [encode, decode_toWord, decodeRaw_encodeRaw]

theorem decode_eq_ok_iff {w : Word} {i : Instr} : decode w = .ok i ↔ encode i = w := by
  constructor
  · intro h
    rw [encode, encodeRaw_of_decodeRaw h, toWord_ofWord]
  · rintro rfl
    exact decode_encode i

/-- No two commands have one word. -/
theorem encode_injective : Function.Injective encode := by
  intro i j h
  simpa [decode_encode] using congrArg decode h

/-! ### The rows by match and mask (R61, R62) -/

/-- A word that meets a match under a mask of its high bits is the match's high bits above its own low bits. -/
theorem append_lowBits_of_and_mask {m n : Nat} {w : BitVec (m + n)} {hi : BitVec m}
    (h : w &&& (BitVec.allOnes m ++ 0#n) = hi ++ 0#n) : hi ++ w.extractLsb' 0 n = w := by
  have hsplit : w.extractLsb' n m ++ w.extractLsb' 0 n = w := BitVec.extractLsb'_append_extractLsb'
  have hhigh : w.extractLsb' n m = hi := by
    rw [← hsplit, BitVec.and_append, BitVec.and_allOnes, BitVec.and_zero] at h
    simpa [BitVec.extractLsb'_append_eq_left] using congrArg (BitVec.extractLsb' n m) h
  rw [← hhigh, hsplit]

/-- A row whose operand is all of opd: m is its match. -/
theorem decode_of_match {op : BitVec 4} {f : Byte → Instr} {m w : Word} (hf : ∀ d, encode (f d) = op ++ 0#4 ++ d)
    (hm : m = op ++ 0#4 ++ 0#8) (h : w &&& 0xFF00#16 = m) : decode w = .ok (f (w.extractLsb' 0 8)) := by
  have hmask : 0xFF00#16 = BitVec.allOnes 8 ++ 0#8 := by decide
  rw [hmask, hm] at h
  exact decode_eq_ok_iff.mpr ((hf _).trans (append_lowBits_of_and_mask h))

/-- The row of DEC.SYM, whose operand is opd[4:0]. -/
theorem decode_of_symbol_match {w : Word} (h : w &&& 0xFFE0#16 = 0x9000#16) :
    decode w = .ok (.decSym (w.extractLsb' 0 5)) := by
  have hencode : ∀ x : Symbol, encode (.decSym x) = 0x480#11 ++ x := by decide
  have hmask : 0xFFE0#16 = BitVec.allOnes 11 ++ 0#5 := by decide
  have hmatch : 0x9000#16 = 0x480#11 ++ 0#5 := by decide
  rw [hmask, hmatch] at h
  exact decode_eq_ok_iff.mpr ((hencode _).trans (append_lowBits_of_and_mask h))

/-! ### Illegal words (R63) -/

theorem opcodeAssigned_eq_false_iff (r : RawCommand) :
    r.opcodeAssigned = false ↔ r.op ∈ [0x0#4, 0xD#4, 0xE#4, 0xF#4] := by
  unfold RawCommand.opcodeAssigned
  generalize r.op = op
  revert op
  decide

theorem reservedClear_eq_false_iff (r : RawCommand) : r.reservedClear = false ↔ r.rsv ≠ 0#4 := by
  simp [RawCommand.reservedClear]

theorem operandClear_eq_false_iff (r : RawCommand) :
    r.operandClear = false ↔ r.op ∈ opcodesWithoutOperand ∧ r.opd ≠ 0#8 := by
  simp [RawCommand.operandClear]

theorem symbolFits_eq_false_iff (r : RawCommand) :
    r.symbolFits = false ↔ r.op = 0x9#4 ∧ r.opd.extractLsb' 5 3 ≠ 0#3 := by
  simp [RawCommand.symbolFits]

/-- A word is refused exactly when one of its fields' four checks fails. -/
theorem decode_isError_iff (w : Word) :
    (∃ e, decode w = .error e) ↔ (RawCommand.ofWord w).wellFormed = false := by
  rw [← Bool.not_eq_true, ← decode_isOk_iff]
  cases decode w <;> simp

/-- The four checks fail as R63 (a) to (d) say. -/
theorem wellFormed_eq_false_iff (r : RawCommand) :
    r.wellFormed = false ↔
      r.op ∈ [0x0#4, 0xD#4, 0xE#4, 0xF#4] ∨ r.rsv ≠ 0#4 ∨ (r.op ∈ opcodesWithoutOperand ∧ r.opd ≠ 0#8) ∨
        (r.op = 0x9#4 ∧ r.opd.extractLsb' 5 3 ≠ 0#3) := by
  simp only [RawCommand.wellFormed, Bool.and_eq_false_iff, opcodeAssigned_eq_false_iff, reservedClear_eq_false_iff,
    operandClear_eq_false_iff, symbolFits_eq_false_iff, or_assoc]

/-! ### How many commands there are (R64) -/

/-- The 256 commands of a row whose operand is all of opd (R61). -/
def rowCommands (f : Byte → Instr) : List Instr :=
  (FinEnum.toList Byte).map f

/-- Every command once, in the order of R64's count. -/
def allCommands : List Instr :=
  [Instr.canon, .isvalid, .value, .digit, .encByte, .decChar].flatMap rowCommands ++
    (FinEnum.toList Symbol).map Instr.decSym ++ [Instr.encInit, .encFlush, .decInit, .decFlush, .status]

theorem mem_allCommands (i : Instr) : i ∈ allCommands := by
  cases i <;> simp [allCommands, rowCommands]

theorem nodup_allCommands : allCommands.Nodup := by
  have hrows : ([Instr.canon, .isvalid, .value, .digit, .encByte, .decChar].flatMap rowCommands).Nodup := by
    refine List.nodup_flatMap.mpr ⟨?_, ?_⟩
    · simp [rowCommands, List.nodup_map_iff_inj_on, FinEnum.nodup_toList]
    · simp [rowCommands, Function.onFun, List.disjoint_left]
  have hsymbols : ((FinEnum.toList Symbol).map Instr.decSym).Nodup := by
    simp [List.nodup_map_iff_inj_on, FinEnum.nodup_toList]
  refine List.Nodup.append (List.Nodup.append hrows hsymbols ?_) (by decide) ?_
  · simp [rowCommands, List.disjoint_right]
  · simp [rowCommands, List.disjoint_right]

theorem length_allCommands : allCommands.length = 1573 := by
  simp [allCommands, rowCommands, FinEnum.toList]

theorem decode_isSome_iff {w : Word} : (decode w).toOption.isSome = true ↔ ∃ i, encode i = w := by
  simp only [← decode_eq_ok_iff]
  cases decode w <;> simp [Except.toOption]

/-- The legal words, as numbers, are the commands' words. -/
theorem legalWords_perm_encode :
    ((List.range 65536).filter fun n => (decode (BitVec.ofNat 16 n)).toOption.isSome).Perm
      (allCommands.map fun i => (encode i).toNat) := by
  have hinj : Function.Injective fun i => (encode i).toNat := BitVec.toNat_injective.comp encode_injective
  have hnodup := List.Nodup.map hinj nodup_allCommands
  refine (List.perm_ext_iff_of_nodup (List.nodup_range.filter _) hnodup).mpr fun n => ?_
  simp only [List.mem_filter, List.mem_range, List.mem_map, decode_isSome_iff]
  constructor
  · rintro ⟨hn, i, hi⟩
    exact ⟨i, mem_allCommands i, by rw [hi, BitVec.toNat_ofNat, Nat.mod_eq_of_lt hn]⟩
  · rintro ⟨i, -, rfl⟩
    exact ⟨(encode i).isLt, i, by simp⟩

end Sys2Proof

open Sys2Proof Sys2Proof.Machine

/-- Settles O3, by the inverse laws of the fields and of the rows. -/
theorem decodeAndEncodeAgree : Obligations.DecodeAndEncodeAgree := by
  unfold Obligations.DecodeAndEncodeAgree
  exact fun _ _ => decode_eq_ok_iff

/-- Settles O4: a word that meets a row's match is the word of the row's command. -/
theorem opcodeMapByMatchAndMask : Obligations.OpcodeMapByMatchAndMask := by
  unfold Obligations.OpcodeMapByMatchAndMask
  refine ⟨fun _ => decode_of_match (op := 0x1#4) (fun _ => rfl) (by decide),
    fun _ => decode_of_match (op := 0x2#4) (fun _ => rfl) (by decide),
    fun _ => decode_of_match (op := 0x3#4) (fun _ => rfl) (by decide),
    fun _ => decode_of_match (op := 0x4#4) (fun _ => rfl) (by decide),
    decode_encode .encInit,
    fun _ => decode_of_match (op := 0x6#4) (fun _ => rfl) (by decide),
    decode_encode .encFlush,
    decode_encode .decInit,
    fun _ => decode_of_symbol_match,
    fun _ => decode_of_match (op := 0xA#4) (fun _ => rfl) (by decide),
    decode_encode .decFlush,
    decode_encode .status,
    fun w hop => ?_⟩
  exact (decode_isError_iff w).mpr ((wellFormed_eq_false_iff _).mpr (.inl hop))

/-- Settles O5: the four checks of the fields, and the step on a refused word. -/
theorem illegalWordsAnswerIllAndChangeNothing : Obligations.IllegalWordsAnswerIllAndChangeNothing := by
  unfold Obligations.IllegalWordsAnswerIllAndChangeNothing
  intro w
  constructor
  · have hhigh : (w.extractLsb' 0 8).extractLsb' 5 3 = w.extractLsb' 5 3 :=
      BitVec.extractLsb'_extractLsb'_of_le (by decide)
    rw [← hhigh]
    exact (decode_isError_iff w).trans (wellFormed_eq_false_iff _)
  · intro s rest e hin hd
    exact step_of_illegal_word hin hd

/-- Settles O6: the legal words are as many as the commands. -/
theorem legalWordCount : Obligations.LegalWordCount := by
  unfold Obligations.LegalWordCount
  refine ⟨?_, .reservedOpcode, by decide⟩
  rw [List.countP_eq_length_filter, List.Perm.length_eq legalWords_perm_encode, List.length_map, length_allCommands]

/-- Settles O1: each word is the one its command encodes. -/
theorem sampleWordsDecode : Obligations.SampleWordsDecode := by
  unfold Obligations.SampleWordsDecode
  simp only [decode_eq_ok_iff]
  decide

/-- Settles O2: the assembler reads each line. -/
theorem assemblyExamples : Obligations.AssemblyExamples := by
  unfold Obligations.AssemblyExamples
  refine ⟨?_, ?_, ?_, ?_⟩ <;> decide

end

section
/-! Proofs about the lookup tables and commands (40_lut.md): the content of the tables (R101, R102), their laws (R107),
and CANON, ISVALID, VALUE and DIGIT (R103 to R106). -/

namespace Sys2Proof

/-- A row whose operand is all of opd: its own command with rsv = 0000, and R63 (b) with any other. -/
theorem operandRow_of_encode {op : BitVec 4} {f : Byte → Instr} (hf : ∀ d, encode (f d) = op ++ 0#4 ++ d) :
    Machine.OperandRow op f := by
  refine ⟨fun d => decode_eq_ok_iff.mpr (hf d), fun rsv d hrsv => ?_⟩
  have hfields : RawCommand.ofWord (op ++ rsv ++ d) = ⟨op, rsv, d⟩ := ofWord_toWord ⟨op, rsv, d⟩
  rw [decode_isError_iff, hfields, wellFormed_eq_false_iff]
  exact .inr (.inl hrsv)

end Sys2Proof

namespace Sys2Proof.Machine

/-! ### ALPHABET, entry by entry (R102) -/

theorem alphabet_ne_zero (v : Symbol) : alphabet v ≠ 0x00#8 := by
  revert v
  decide

/-- `VALUE_ROM` is the reverse index of `ALPHABET`. -/
@[simp] theorem valueRom_alphabet (v : Symbol) : valueRom (alphabet v) = v.setWidth 8 := by
  revert v
  decide

/-- An alphabet character is its own canonical form. -/
@[simp] theorem canonRom_alphabet (v : Symbol) : canonRom (alphabet v) = alphabet v := by
  revert v
  decide

/-! ### The rows of R101 -/

/-- The characters that have a row. -/
def rowChars : List Byte :=
  lutRows.map Prod.fst

theorem nodup_rowChars : rowChars.Nodup := by decide

theorem mem_lutRows_of_lutRow {c : Byte} {p : Byte × Byte} (h : lutRow c = some p) : (c, p) ∈ lutRows := by
  obtain ⟨before, after, hrows, -⟩ := List.lookup_eq_some_iff.mp h
  simp [hrows]

/-- A row gives an alphabet character and its position. -/
theorem lutRows_entry : ∀ row ∈ lutRows, ∃ v : Symbol, row.2 = (alphabet v, v.setWidth 8) :=
  List.forall_iff_forall_mem.mp (by decide)

/-- A character has a canonical digit and that digit's position, or both sentinels. -/
theorem canonRom_valueRom_cases (c : Byte) :
    (∃ v : Symbol, canonRom c = alphabet v ∧ valueRom c = v.setWidth 8) ∨
      (canonRom c = 0x00#8 ∧ valueRom c = 0xFF#8) := by
  unfold canonRom valueRom
  cases hrow : lutRow c with
  | none => exact .inr ⟨rfl, rfl⟩
  | some p =>
    obtain ⟨v, rfl⟩ := lutRows_entry _ (mem_lutRows_of_lutRow hrow)
    exact .inl ⟨v, rfl, rfl⟩

theorem exists_alphabet_of_canonRom_ne_zero {c : Byte} (h : canonRom c ≠ 0x00#8) :
    ∃ v : Symbol, canonRom c = alphabet v ∧ valueRom c = v.setWidth 8 :=
  (canonRom_valueRom_cases c).resolve_right fun ⟨hcanon, _⟩ => h hcanon

/-- The valid characters are those that have a row. -/
theorem canonRom_ne_zero_iff (c : Byte) : canonRom c ≠ 0x00#8 ↔ c ∈ rowChars := by
  have hrows : ∀ c ∈ rowChars, canonRom c ≠ 0x00#8 := List.forall_iff_forall_mem.mp (by decide)
  refine ⟨fun h => ?_, hrows c⟩
  cases hrow : lutRow c with
  | none => simp [canonRom, hrow] at h
  | some p => exact List.mem_map_of_mem (mem_lutRows_of_lutRow hrow)

theorem rowChars_toNat_lt : ∀ c ∈ rowChars, c.toNat < 0x80 :=
  List.forall_iff_forall_mem.mp (by decide)

/-- The valid characters are the other forms of `0` and `1`, the alphabet and its small letters. -/
theorem rowChars_kinds : ∀ c ∈ rowChars,
    c ∈ [0x6F#8, 0x4F#8, 0x69#8, 0x49#8, 0x6C#8, 0x4C#8] ∨
      ∃ v : Symbol, c = alphabet v ∨ (0x41 ≤ (alphabet v).toNat ∧ c = alphabet v + 0x20#8) :=
  List.forall_iff_forall_mem.mp (by decide)

/-- The valid characters, as numbers, are the rows' characters. -/
theorem validChars_perm_rowChars :
    ((List.range 256).filter fun n => canonRom (BitVec.ofNat 8 n) != 0x00#8).Perm (rowChars.map BitVec.toNat) := by
  have hnodup := nodup_rowChars.map BitVec.toNat_injective
  refine (List.perm_ext_iff_of_nodup (List.nodup_range.filter _) hnodup).mpr fun n => ?_
  simp only [List.mem_filter, List.mem_range, List.mem_map, bne_iff_ne, canonRom_ne_zero_iff]
  constructor
  · rintro ⟨hn, hrow⟩
    exact ⟨_, hrow, by rw [BitVec.toNat_ofNat, Nat.mod_eq_of_lt hn]⟩
  · rintro ⟨c, hrow, rfl⟩
    exact ⟨c.isLt, by simpa using hrow⟩

theorem countP_valid : ((List.range 256).countP fun n => canonRom (BitVec.ofNat 8 n) != 0x00#8) = 60 := by
  rw [List.countP_eq_length_filter, validChars_perm_rowChars.length_eq, List.length_map]
  decide

/-- Every character of a list is valid or invalid. -/
theorem length_eq_valid_add_invalid (chars : List Nat) :
    chars.length = (chars.countP fun n => canonRom (BitVec.ofNat 8 n) != 0x00#8) +
      chars.countP fun n => canonRom (BitVec.ofNat 8 n) == 0x00#8 := by
  simpa [beq_eq_decide] using
    List.length_eq_countP_add_countP (fun n => canonRom (BitVec.ofNat 8 n) != 0x00#8) (l := chars)

theorem countP_invalid : ((List.range 256).countP fun n => canonRom (BitVec.ofNat 8 n) == 0x00#8) = 196 := by
  have hsplit := length_eq_valid_add_invalid (List.range 256)
  rw [countP_valid, List.length_range] at hsplit
  omega

/-! ### The characters R101 names -/

theorem canonRom_zero_forms : ∀ c ∈ [0x30#8, 0x6F#8, 0x4F#8], canonRom c = alphabet 0#5 := by decide

theorem canonRom_one_forms : ∀ c ∈ [0x31#8, 0x69#8, 0x49#8, 0x6C#8, 0x4C#8], canonRom c = alphabet 1#5 := by decide

/-- The small form of an alphabet letter has the letter as its canonical form. -/
theorem canonRom_small_letter (v : Symbol) (h : 0x41 ≤ (alphabet v).toNat) :
    canonRom (alphabet v + 0x20#8) = alphabet v := by
  revert v
  decide

theorem canonRom_of_toNat_ge {c : Byte} (h : 0x80 ≤ c.toNat) : canonRom c = 0x00#8 := by
  by_contra hvalid
  have hlt := rowChars_toNat_lt c ((canonRom_ne_zero_iff c).mp hvalid)
  omega

/-! ### The laws of the tables (R102, R107) -/

theorem canonRom_canonRom (c : Byte) : canonRom (canonRom c) = canonRom c := by
  obtain ⟨v, hcanon, -⟩ | ⟨hcanon, -⟩ := canonRom_valueRom_cases c
  · rw [hcanon, canonRom_alphabet]
  · rw [hcanon]
    decide

theorem valueRom_canonRom {c : Byte} (h : canonRom c ≠ 0x00#8) : valueRom (canonRom c) = valueRom c := by
  obtain ⟨v, hcanon, hvalue⟩ := exists_alphabet_of_canonRom_ne_zero h
  rw [hcanon, hvalue, valueRom_alphabet]

/-- A character's value is the position of its canonical form. -/
theorem valueRom_of_canonRom {c : Byte} {v : Symbol} (h : canonRom c = alphabet v) : valueRom c = v.setWidth 8 := by
  have hvalid : canonRom c ≠ 0x00#8 := h ▸ alphabet_ne_zero v
  rw [← valueRom_canonRom hvalid, h, valueRom_alphabet]

theorem symbol_setWidth_toNat_lt (v : Symbol) : (v.setWidth 8).toNat < 32 := by
  have hv := v.isLt
  rwa [BitVec.toNat_setWidth_of_le (by decide)]

theorem symbol_setWidth_ne_sentinel (v : Symbol) : v.setWidth 8 ≠ 0xFF#8 := by
  intro h
  have hlt := symbol_setWidth_toNat_lt v
  simp [h] at hlt

theorem extract_setWidth_symbol (v : Symbol) : (v.setWidth 8).extractLsb' 0 5 = v := by
  rw [← BitVec.setWidth_eq_extractLsb' (by decide), BitVec.setWidth_setWidth_of_le _ (by decide), BitVec.setWidth_eq]

/-- The two sentinels stand together. -/
theorem valueRom_eq_sentinel_iff (c : Byte) : valueRom c = 0xFF#8 ↔ canonRom c = 0x00#8 := by
  obtain ⟨v, hcanon, hvalue⟩ | ⟨hcanon, hvalue⟩ := canonRom_valueRom_cases c
  · simp only [hcanon, hvalue, alphabet_ne_zero, symbol_setWidth_ne_sentinel]
  · simp only [hcanon, hvalue]

theorem alphabet_valueRom {c : Byte} (h : canonRom c ≠ 0x00#8) :
    alphabet ((valueRom c).extractLsb' 0 5) = canonRom c := by
  obtain ⟨v, hcanon, hvalue⟩ := exists_alphabet_of_canonRom_ne_zero h
  rw [hcanon, hvalue, extract_setWidth_symbol]

theorem valueRom_lt_or_sentinel (c : Byte) : (valueRom c).toNat < 32 ∨ valueRom c = 0xFF#8 := by
  obtain ⟨v, -, hvalue⟩ | ⟨-, hvalue⟩ := canonRom_valueRom_cases c
  · exact .inl (hvalue ▸ symbol_setWidth_toNat_lt v)
  · exact .inr hvalue

/-! ### The words the commands answer (R104, R106) -/

theorem boolWord_charValid (c : Byte) :
    boolWord (charValid c) = if canonRom c ≠ 0x00#8 then 0x01#8 else 0x00#8 := by
  by_cases h : canonRom c = 0x00#8 <;> simp [boolWord, charValid, h]

theorem boolWord_charValid_eq_one_iff (c : Byte) : boolWord (charValid c) = 0x01#8 ↔ canonRom c ≠ 0x00#8 := by
  rw [boolWord_charValid]
  split <;> simp [*]

theorem digitFor_of_lt {v : Byte} (h : v.toNat < 32) : digitFor v = alphabet (v.extractLsb' 0 5) := by
  have hpos : (v.extractLsb' 0 5).toNat = v.toNat := by simp [Nat.mod_eq_of_lt h]
  rw [digitFor, if_pos h, alphabet, hpos]

theorem digitFor_of_ge {v : Byte} (h : 32 ≤ v.toNat) : digitFor v = 0x00#8 :=
  if_neg (Nat.not_lt.mpr h)

end Sys2Proof.Machine

open Sys2Proof Sys2Proof.Machine

/-- Settles O14: the entries are evaluated; the reverse index is read off the rows. -/
theorem alphabetContent : Obligations.AlphabetContent := by
  unfold Obligations.AlphabetContent
  exact ⟨by decide, valueRom_alphabet, fun _ hvalid => (valueRom_canonRom hvalid).symm⟩

/-- Settles O15: the characters R101 names, and that only a row makes a character valid. -/
theorem canonicalizationTableContent : Obligations.CanonicalizationTableContent := by
  unfold Obligations.CanonicalizationTableContent
  exact ⟨canonRom_zero_forms, canonRom_one_forms, canonRom_alphabet, canonRom_small_letter,
    fun c hvalid => rowChars_kinds c ((canonRom_ne_zero_iff c).mp hvalid),
    fun _ _ => valueRom_of_canonRom,
    fun c => (valueRom_eq_sentinel_iff c).mpr,
    countP_valid⟩

/-- Settles O16: a character has a canonical digit and its position, or both sentinels. -/
theorem tableLaws : Obligations.TableLaws := by
  unfold Obligations.TableLaws
  refine ⟨canonRom_canonRom, countP_valid, countP_invalid, fun v => ⟨valueRom_alphabet v, ?_⟩,
    valueRom_eq_sentinel_iff, fun _ => alphabet_valueRom⟩
  rw [digitFor_of_lt (symbol_setWidth_toNat_lt v), extract_setWidth_symbol]

/-- Settles O17: CANON only responds; a valid character outside the alphabet has its canonical form inside it. -/
theorem canonGivesTheCanonicalCharacter : Obligations.CanonGivesTheCanonicalCharacter := by
  unfold Obligations.CanonGivesTheCanonicalCharacter
  refine ⟨operandRow_of_encode fun _ => rfl, fun _ _ => rfl, by decide, by decide, by decide,
    fun _ => canonRom_of_toNat_ge, fun c hvalid houtside => ?_, decode_encode (.canon 0x6F#8), by decide⟩
  obtain ⟨v, hcanon, -⟩ := exists_alphabet_of_canonRom_ne_zero hvalid
  exact ⟨fun hself => houtside v (hcanon ▸ hself), v, hcanon.symm⟩

/-- Settles O18: ISVALID only responds, and answers 0x01 exactly for the valid characters. -/
theorem isvalidSaysWhetherACharacterIsValid : Obligations.IsvalidSaysWhetherACharacterIsValid := by
  unfold Obligations.IsvalidSaysWhetherACharacterIsValid
  refine ⟨operandRow_of_encode fun _ => rfl, fun c s => ?_, by decide, by decide, ?_,
    decode_encode (.isvalid 0x4C#8), decode_encode (.isvalid 0x2D#8)⟩
  · rw [← boolWord_charValid]
    rfl
  · refine (List.countP_congr fun n _ => ?_).trans countP_valid
    simp [exec, execIsvalid, State.reset, boolWord_charValid_eq_one_iff]

/-- Settles O19: VALUE only responds, with the position of the canonical form or the sentinel. -/
theorem valueGivesTheAlphabetPosition : Obligations.ValueGivesTheAlphabetPosition := by
  unfold Obligations.ValueGivesTheAlphabetPosition
  have hz : ∀ c ∈ [0x5A#8, 0x7A#8], canonRom c = alphabet 31#5 := by decide
  exact ⟨operandRow_of_encode fun _ => rfl, fun _ _ => rfl, fun c => (valueRom_eq_sentinel_iff c).mpr,
    fun c hc => valueRom_of_canonRom (canonRom_zero_forms c hc),
    fun c hc => valueRom_of_canonRom (canonRom_one_forms c hc),
    fun c hc => valueRom_of_canonRom (hz c hc),
    valueRom_lt_or_sentinel, decode_encode (.value 0x7A#8), decode_encode (.value 0x55#8), by decide⟩

/-- Settles O20: DIGIT only responds, and its table is read at the low five bits of a value below 32. -/
theorem digitGivesTheAlphabetCharacter : Obligations.DigitGivesTheAlphabetCharacter := by
  unfold Obligations.DigitGivesTheAlphabetCharacter
  refine ⟨operandRow_of_encode fun _ => rfl, fun v s hv => ?_, fun v s hv => ?_, by decide, by decide,
    decode_encode (.digit 18#8), by decide⟩
  · rw [← digitFor_of_lt hv]
    rfl
  · rw [← digitFor_of_ge hv]
    rfl

end

section
/-! Proofs about the encoder (41_encoder.md): its three commands (R123 to R125), the digits' characters (R128), the job
laws (R126, R127) and the round trip (R129). What is said of bit streams, of runs over presented words and of what an
engine keeps holds for either engine. -/

namespace Sys2Proof

/-- A row without an operand: its one word, and R63 (b) or (c) with any other field. -/
theorem plainRow_of_encode {op : BitVec 4} {i : Instr} (hi : encode i = op ++ 0#4 ++ 0#8)
    (hop : op ∈ opcodesWithoutOperand) : Machine.PlainRow op i := by
  refine ⟨decode_eq_ok_iff.mpr hi, fun rsv d hfields => ?_⟩
  have hraw : RawCommand.ofWord (op ++ rsv ++ d) = ⟨op, rsv, d⟩ := ofWord_toWord ⟨op, rsv, d⟩
  rw [decode_isError_iff, hraw, wellFormed_eq_false_iff]
  exact .inr (hfields.imp_right fun hd => .inl ⟨hop, hd⟩)

end Sys2Proof

namespace Sys2Proof.Machine

/-! ### Groups of a bit stream (R120, R140) -/

/-- Reading the low k bits of v, highest first, after a value n: what `ofBits` does digit by digit. -/
theorem foldl_pendingBits {w : Nat} (v : BitVec w) (k n : Nat) :
    (pendingBits k v).foldl (fun n b => 2 * n + b.toNat) n = n * 2 ^ k + v.toNat % 2 ^ k := by
  induction k generalizing n with
  | zero => simp [pendingBits, Nat.mod_one]
  | succ k ih =>
    have hsplit : pendingBits (k + 1) v = v.getLsbD k :: pendingBits k v := by
      simp [pendingBits, List.range_succ_eq_map, Function.comp_def, Nat.sub_add_eq, Nat.sub_right_comm]
    rw [hsplit, List.foldl_cons, ih, Nat.mod_pow_succ, ← Nat.toNat_testBit, BitVec.testBit_toNat]
    ring

theorem ofBits_bitsOf {w : Nat} (v : BitVec w) : ofBits w (bitsOf v) = v := by
  apply BitVec.eq_of_toNat_eq
  rw [bitsOf_eq_pendingBits, ofBits, foldl_pendingBits]
  simp [Nat.mod_eq_of_lt v.isLt]

theorem length_bitsOf {w : Nat} (v : BitVec w) : (bitsOf v).length = w := by
  simp [bitsOf]

theorem exists_bitsOf_eq {w : Nat} {bs : List Bool} (h : bs.length = w) : ∃ v : BitVec w, bitsOf v = bs := by
  subst h
  refine ⟨BitVec.ofBoolListBE bs, List.ext_getElem (length_bitsOf _) fun i _ hi => ?_⟩
  simp [bitsOf, BitVec.getMsbD_ofBoolListBE, hi]

theorem bitsOf_ofBits {w : Nat} {bs : List Bool} (h : bs.length = w) : bitsOf (ofBits w bs) = bs := by
  obtain ⟨v, rfl⟩ := exists_bitsOf_eq h
  rw [ofBits_bitsOf]

theorem length_flatMap_bitsOf {w : Nat} (xs : List (BitVec w)) : (xs.flatMap bitsOf).length = w * xs.length := by
  simp [List.length_flatMap, length_bitsOf, Nat.mul_comm]

/-- The first group, then the groups of the rest of the stream. -/
theorem regroup_succ (w m : Nat) (stream : List Bool) :
    regroup w (m + 1) stream = ofBits w (stream.take w) :: regroup w m (stream.drop w) := by
  simp [regroup, List.range_succ_eq_map, Function.comp_def, Nat.mul_add, Nat.add_comm]

theorem length_regroup (w m : Nat) (stream : List Bool) : (regroup w m stream).length = m := by
  simp [regroup]

/-- Cutting the bits of values into groups of their width gives the values. -/
theorem regroup_flatMap_bitsOf {w : Nat} (xs : List (BitVec w)) : regroup w xs.length (xs.flatMap bitsOf) = xs := by
  induction xs with
  | nil => rfl
  | cons x xs ih =>
    have htake : (bitsOf x ++ xs.flatMap bitsOf).take w = bitsOf x := List.take_left' (length_bitsOf x)
    have hdrop : (bitsOf x ++ xs.flatMap bitsOf).drop w = xs.flatMap bitsOf := List.drop_left' (length_bitsOf x)
    rw [List.length_cons, regroup_succ, List.flatMap_cons, htake, hdrop, ofBits_bitsOf, ih]

/-- Groups that cut a stream without a rest have its bits. -/
theorem flatMap_bitsOf_regroup {w m : Nat} {stream : List Bool} (h : stream.length = w * m) :
    (regroup w m stream).flatMap bitsOf = stream := by
  induction m generalizing stream with
  | zero => simpa [regroup, eq_comm] using h
  | succ m ih =>
    rw [Nat.mul_succ] at h
    rw [regroup_succ, List.flatMap_cons, bitsOf_ofBits (by simp; omega), ih (by simp; omega), List.take_append_drop]

/-! ### ENCODE and DECODE by their bits -/

theorem length_encodeBytes (bytes : List Byte) : (encodeBytes bytes).length = encodedLength bytes.length :=
  length_regroup _ _ _

theorem length_decodeSymbols (syms : List Symbol) : (decodeSymbols syms).length = decodedSize syms.length :=
  length_regroup _ _ _

/-- The digits hold all bits of n bytes, and the last one is needed (R121). -/
theorem encodedLength_bounds (n : Nat) : 8 * n ≤ 5 * encodedLength n ∧ 5 * encodedLength n < 8 * n + 5 := by
  unfold encodedLength
  omega

/-- The bytes hold all bits of d digits, and the last one is needed (R141). -/
theorem decodedSize_bounds (d : Nat) : 5 * d ≤ 8 * decodedSize d ∧ 8 * decodedSize d < 5 * d + 8 := by
  unfold decodedSize
  omega

/-- The bits of ENCODE are the bytes' bits, zero-filled (R120, R122). -/
theorem bits_encodeBytes (bytes : List Byte) :
    (encodeBytes bytes).flatMap bitsOf =
      bytes.flatMap bitsOf ++ List.replicate (5 * encodedLength bytes.length - 8 * bytes.length) false := by
  have hbounds := encodedLength_bounds bytes.length
  refine flatMap_bitsOf_regroup ?_
  rw [List.length_append, length_flatMap_bitsOf, List.length_replicate]
  omega

/-- Symbols whose bits are the bytes' bits and fewer than five zeros are ENCODE of the bytes. -/
theorem eq_encodeBytes_of_bits {syms : List Symbol} {bytes : List Byte} {p : Nat} (hp : p < 5)
    (h : syms.flatMap bitsOf = bytes.flatMap bitsOf ++ List.replicate p false) : syms = encodeBytes bytes := by
  have hlen := congrArg List.length h
  simp only [List.length_append, length_flatMap_bitsOf, List.length_replicate] at hlen
  have hbounds := encodedLength_bounds bytes.length
  have hcount : encodedLength bytes.length = syms.length := by omega
  have hpad : 5 * syms.length - 8 * bytes.length = p := by omega
  rw [encodeBytes, hcount, hpad, ← h, regroup_flatMap_bitsOf]

/-- Bytes whose bits are the symbols' bits and fewer than eight zeros are DECODE of the symbols. -/
theorem eq_decodeSymbols_of_bits {bytes : List Byte} {syms : List Symbol} {q : Nat} (hq : q < 8)
    (h : bytes.flatMap bitsOf = syms.flatMap bitsOf ++ List.replicate q false) : bytes = decodeSymbols syms := by
  have hlen := congrArg List.length h
  simp only [List.length_append, length_flatMap_bitsOf, List.length_replicate] at hlen
  have hbounds := decodedSize_bounds syms.length
  have hcount : decodedSize syms.length = bytes.length := by omega
  have hpad : 8 * bytes.length - 5 * syms.length = q := by omega
  rw [decodeSymbols, hcount, hpad, ← h, regroup_flatMap_bitsOf]

/-- Where the first bytes fill their digits, no padding stands between the two codes (R127). -/
theorem encodeBytes_append {xs : List Byte} (h : xs.length % 5 = 0) (ys : List Byte) :
    encodeBytes (xs ++ ys) = encodeBytes xs ++ encodeBytes ys := by
  have hxs := encodedLength_bounds xs.length
  have hys := encodedLength_bounds ys.length
  have hpad : 5 * encodedLength xs.length - 8 * xs.length = 0 := by omega
  refine (eq_encodeBytes_of_bits (p := 5 * encodedLength ys.length - 8 * ys.length) (by omega) ?_).symm
  simp [bits_encodeBytes, hpad]

/-- The zeros that fill the last digit and the last byte make up one zero byte, unless neither needs any (R129). -/
theorem decodeSymbols_encodeBytes (bytes : List Byte) :
    decodeSymbols (encodeBytes bytes) = bytes ++ if bytes.length % 5 = 0 then [] else [0x00#8] := by
  have hbounds := encodedLength_bounds bytes.length
  have hbits := bits_encodeBytes bytes
  generalize hp : 5 * encodedLength bytes.length - 8 * bytes.length = p at hbits
  symm
  split
  next h5 =>
    have hzero : p = 0 := by omega
    exact eq_decodeSymbols_of_bits (q := 0) (by omega) (by simp [hbits, hzero])
  next h5 =>
    have hsum : p + (8 - p) = 8 := by omega
    have hbyte : bitsOf 0x00#8 = List.replicate 8 false := by decide
    refine eq_decodeSymbols_of_bits (q := 8 - p) (by omega) ?_
    simp [hbits, hbyte, hsum]

/-! ### Runs over presented words (R47, R49) -/

/-- Presented with the words, s performs them all and becomes t, adding the responses rs, one per word. -/
structure Answers (ws : List Word) (s t : State) (rs : List (List Token)) : Prop where
  runs : runWords ws s = .next t
  responses : t.responses = s.responses ++ rs
  length : rs.length = ws.length

theorem Answers.nil (s : State) : Answers [] s { s with inputs := [] } [] :=
  ⟨rfl, by simp, rfl⟩

theorem Answers.unique {ws : List Word} {s t t' : State} {rs rs' : List (List Token)} (h : Answers ws s t rs)
    (h' : Answers ws s t' rs') : t = t' ∧ rs = rs' := by
  obtain rfl : t = t' := by simpa using h.runs.symm.trans h'.runs
  exact ⟨rfl, by simpa using h.responses.symm.trans h'.responses⟩

/-- No command looks at what is still presented. -/
theorem exec_of_inputs (i : Instr) {s t : State} (h : exec i s = .next t) (ins : List HostInput) :
    exec i { s with inputs := ins } = .next { t with inputs := ins } := by
  cases i with
  | decChar c =>
    cases hc : charValid c with
    | true =>
      rw [exec_decChar_valid hc] at h ⊢
      cases h
      rfl
    | false =>
      rw [exec_decChar_invalid hc] at h ⊢
      cases h
      rfl
  | _ =>
    cases h
    rfl

/-- A legal word first: the others are performed after its command. -/
theorem runWords_cons_of_exec {w : Word} {i : Instr} {s t : State} (hd : decode w = .ok i) (h : exec i s = .next t)
    (ws : List Word) : runWords (w :: ws) s = runWords ws t :=
  run_succ _ ((step_of_legal_word rfl hd).trans (exec_of_inputs i h _))

/-- An illegal word first: the others are performed after its rejection. -/
theorem runWords_cons_of_illegal {w : Word} {e : Illegal} (hd : decode w = .error e) (s : State) (ws : List Word) :
    runWords (w :: ws) s = runWords ws (raiseIllegal s) :=
  run_succ _ (step_of_illegal_word rfl hd)

theorem Answers.cons_of_exec {w : Word} {i : Instr} {ws : List Word} {s t u : State} {r : List Token}
    {rs : List (List Token)} (hd : decode w = .ok i) (hexec : exec i s = .next t)
    (hresp : t.responses = s.responses ++ [r]) (h : Answers ws t u rs) : Answers (w :: ws) s u (r :: rs) :=
  ⟨(runWords_cons_of_exec hd hexec ws).trans h.runs, by simp [h.responses, hresp], by simp [h.length]⟩

theorem Answers.cons_of_illegal {w : Word} {e : Illegal} {ws : List Word} {s u : State} {rs : List (List Token)}
    (hd : decode w = .error e) (h : Answers ws (raiseIllegal s) u rs) : Answers (w :: ws) s u ([.ILL] :: rs) :=
  ⟨(runWords_cons_of_illegal hd s ws).trans h.runs, by simp [h.responses, raiseIllegal_eq], by simp [h.length]⟩

/-- The words of a longer list are performed on from where its first part ends. -/
theorem runWords_append {ws : List Word} (vs : List Word) {s t : State} (h : runWords ws s = .next t) :
    runWords (ws ++ vs) s = runWords vs t := by
  induction ws generalizing s with
  | nil =>
    cases h
    rfl
  | cons w ws ih =>
    cases hd : decode w with
    | ok i =>
      obtain ⟨u, r, hexec, -, -⟩ := exec_next i s
      rw [runWords_cons_of_exec hd hexec] at h
      rw [List.cons_append, runWords_cons_of_exec hd hexec]
      exact ih h
    | error e =>
      rw [runWords_cons_of_illegal hd] at h
      rw [List.cons_append, runWords_cons_of_illegal hd]
      exact ih h

theorem Answers.append {ws vs : List Word} {s t u : State} {rs qs : List (List Token)} (h : Answers ws s t rs)
    (h' : Answers vs t u qs) : Answers (ws ++ vs) s u (rs ++ qs) :=
  ⟨(runWords_append vs h.runs).trans h'.runs, by simp [h'.responses, h.responses], by simp [h.length, h'.length]⟩

/-! ### The commands of one sub-block among the words (R31, R61) -/

/-- The command a word gives one sub-block, if it gives one. -/
def commandOf (b : SubBlock) (w : Word) : Option Instr :=
  (decode w).toOption.filter fun i => subBlock i == b

theorem commandsOf_eq_filterMap (b : SubBlock) (ws : List Word) : commandsOf b ws = ws.filterMap (commandOf b) :=
  List.filter_filterMap

theorem commandsOf_append (b : SubBlock) (ws vs : List Word) :
    commandsOf b (ws ++ vs) = commandsOf b ws ++ commandsOf b vs := by
  simp [commandsOf_eq_filterMap]

theorem commandOf_of_illegal {w : Word} {e : Illegal} (hd : decode w = .error e) (b : SubBlock) :
    commandOf b w = none := by
  simp [commandOf, hd, Except.toOption]

theorem commandOf_of_ok {w : Word} {i : Instr} (hd : decode w = .ok i) (b : SubBlock) :
    commandOf b w = if subBlock i = b then some i else none := by
  simp [commandOf, hd, Except.toOption, Option.filter]

theorem commandOf_eq_some {b : SubBlock} {w : Word} {i : Instr} (h : commandOf b w = some i) :
    decode w = .ok i ∧ subBlock i = b := by
  cases hd : decode w <;> simp_all [commandOf, Except.toOption]

theorem commandsOf_eq_nil_iff {b : SubBlock} {ws : List Word} :
    commandsOf b ws = [] ↔ ∀ w ∈ ws, commandOf b w = none := by
  rw [commandsOf_eq_filterMap, List.filterMap_eq_nil_iff]

/-- Where the sub-block's first command stands: after words that give it none. -/
theorem commandsOf_eq_cons {b : SubBlock} {ws : List Word} {i : Instr} {is : List Instr}
    (h : commandsOf b ws = i :: is) :
    ∃ pre w post, ws = pre ++ w :: post ∧ commandsOf b pre = [] ∧ decode w = .ok i ∧ subBlock i = b ∧
      commandsOf b post = is := by
  rw [commandsOf_eq_filterMap] at h
  obtain ⟨pre, w, post, rfl, hpre, hw, hpost⟩ := List.filterMap_eq_cons_iff.mp h
  obtain ⟨hd, hi⟩ := commandOf_eq_some hw
  exact ⟨pre, w, post, rfl, commandsOf_eq_nil_iff.mpr hpre, hd, hi, (commandsOf_eq_filterMap b post).trans hpost⟩

/-- Where the sub-block's commands fall into two parts, so do the words. -/
theorem commandsOf_eq_append {b : SubBlock} {ws : List Word} {is js : List Instr}
    (h : commandsOf b ws = is ++ js) :
    ∃ us vs, ws = us ++ vs ∧ commandsOf b us = is ∧ commandsOf b vs = js := by
  simp only [commandsOf_eq_filterMap] at h ⊢
  exact List.filterMap_eq_append_iff.mp h

/-- Where the sub-block's last command stands: before words that give it none. -/
theorem commandsOf_eq_concat {b : SubBlock} {ws : List Word} {is : List Instr} {i : Instr}
    (h : commandsOf b ws = is ++ [i]) :
    ∃ pre w post, ws = pre ++ w :: post ∧ commandsOf b pre = is ∧ decode w = .ok i ∧ commandsOf b post = [] := by
  obtain ⟨us, vs, rfl, hus, hvs⟩ := commandsOf_eq_append h
  obtain ⟨pre, w, post, rfl, hpre, hd, -, hpost⟩ := commandsOf_eq_cons hvs
  exact ⟨us ++ pre, w, post, by simp, by rw [commandsOf_append, hus, hpre, List.append_nil], hd, hpost⟩

/-- The words of commands give a sub-block those of them that address it. -/
theorem commandsOf_map_encode (b : SubBlock) (is : List Instr) :
    commandsOf b (is.map encode) = is.filter fun i => subBlock i == b := by
  simp [commandsOf, List.filterMap_map, decode_encode, Except.toOption]

/-! ### What the other sub-blocks' commands leave to an engine (R31) -/

/-- An engine's registers are kept, and no token of its kind is emitted. -/
structure Keeps (b : SubBlock) (s t : State) (ts : List Token) : Prop where
  encoder : b = .encoder → t.encAcc = s.encAcc ∧ t.encCnt = s.encCnt ∧ symbolsOf ts = []
  decoder : b = .decoder → t.decAcc = s.decAcc ∧ t.decCnt = s.decCnt ∧ t.decErr = s.decErr ∧ bytesOf ts = []

theorem symbolsOf_append (ts us : List Token) : symbolsOf (ts ++ us) = symbolsOf ts ++ symbolsOf us :=
  List.filterMap_append

theorem bytesOf_append (ts us : List Token) : bytesOf (ts ++ us) = bytesOf ts ++ bytesOf us :=
  List.filterMap_append

theorem Keeps.refl (b : SubBlock) (s : State) (ins : List HostInput) : Keeps b s { s with inputs := ins } [] :=
  ⟨fun _ => ⟨rfl, rfl, rfl⟩, fun _ => ⟨rfl, rfl, rfl, rfl⟩⟩

theorem Keeps.trans {b : SubBlock} {s t u : State} {ts us : List Token} (h : Keeps b s t ts) (h' : Keeps b t u us) :
    Keeps b s u (ts ++ us) := by
  constructor <;> intro hb
  · obtain ⟨hacc, hcnt, hts⟩ := h.encoder hb
    obtain ⟨hacc', hcnt', hus⟩ := h'.encoder hb
    exact ⟨hacc'.trans hacc, hcnt'.trans hcnt, by rw [symbolsOf_append, hts, hus, List.append_nil]⟩
  · obtain ⟨hacc, hcnt, herr, hts⟩ := h.decoder hb
    obtain ⟨hacc', hcnt', herr', hus⟩ := h'.decoder hb
    exact ⟨hacc'.trans hacc, hcnt'.trans hcnt, herr'.trans herr,
      by rw [bytesOf_append, hts, hus, List.append_nil]⟩

/-- An illegal word answers no digit and no byte (R201). -/
theorem keeps_raiseIllegal (b : SubBlock) (s : State) : Keeps b s (raiseIllegal s) [.ILL] :=
  ⟨fun _ => ⟨rfl, rfl, rfl⟩, fun _ => ⟨rfl, rfl, rfl, rfl⟩⟩

/-- Only the encoder's commands emit digits (R46). -/
theorem Emits.symbolsOf_eq_nil {i : Instr} {r : List Token} (h : Emits i r) (hi : subBlock i ≠ .encoder) :
    symbolsOf r = [] := by
  cases i with
  | canon _ | isvalid _ | value _ | digit _ | status =>
    obtain ⟨w, rfl⟩ := h
    rfl
  | encInit | encByte _ | encFlush => exact absurd rfl hi
  | decInit =>
    cases h
    rfl
  | decSym _ | decChar _ => obtain rfl | ⟨b, rfl⟩ := h <;> rfl
  | decFlush => obtain ⟨w, rfl | ⟨b, rfl⟩⟩ := h <;> rfl

/-- Only the decoder's commands emit bytes (R46). -/
theorem Emits.bytesOf_eq_nil {i : Instr} {r : List Token} (h : Emits i r) (hi : subBlock i ≠ .decoder) :
    bytesOf r = [] := by
  cases i with
  | canon _ | isvalid _ | value _ | digit _ | status =>
    obtain ⟨w, rfl⟩ := h
    rfl
  | encInit =>
    cases h
    rfl
  | encByte _ => obtain ⟨x, cx, rfl | ⟨y, cy, rfl⟩⟩ := h <;> rfl
  | encFlush => obtain rfl | ⟨x, cx, rfl⟩ := h <;> rfl
  | decInit | decSym _ | decChar _ | decFlush => exact absurd rfl hi

theorem exec_keeps_encoder {i : Instr} {s t : State} (hi : subBlock i ≠ .encoder) (h : exec i s = .next t) :
    t.encAcc = s.encAcc ∧ t.encCnt = s.encCnt := by
  obtain ⟨hframe, -⟩ := subBlocksShareNoState
  obtain ⟨hread, -, hdec⟩ := hframe i s t h
  cases hb : subBlock i with
  | encoder => exact absurd hb hi
  | decoder => exact ⟨(congrArg State.encAcc (hdec hb) :), (congrArg State.encCnt (hdec hb) :)⟩
  | lut | statusRead =>
    have ht := hread (by simp [hb])
    exact ⟨(congrArg State.encAcc ht :), (congrArg State.encCnt ht :)⟩

theorem exec_keeps_decoder {i : Instr} {s t : State} (hi : subBlock i ≠ .decoder) (h : exec i s = .next t) :
    t.decAcc = s.decAcc ∧ t.decCnt = s.decCnt ∧ t.decErr = s.decErr := by
  obtain ⟨hframe, -⟩ := subBlocksShareNoState
  obtain ⟨hread, henc, -⟩ := hframe i s t h
  cases hb : subBlock i with
  | decoder => exact absurd hb hi
  | encoder =>
    have ht := henc hb
    exact ⟨(congrArg State.decAcc ht :), (congrArg State.decCnt ht :), (congrArg State.decErr ht :)⟩
  | lut | statusRead =>
    have ht := hread (by simp [hb])
    exact ⟨(congrArg State.decAcc ht :), (congrArg State.decCnt ht :), (congrArg State.decErr ht :)⟩

theorem keeps_of_exec {b : SubBlock} {i : Instr} {s t : State} {r : List Token} (hi : subBlock i ≠ b)
    (hexec : exec i s = .next t) (hresp : t.responses = s.responses ++ [r]) : Keeps b s t r := by
  have hemits := emits_of_exec hexec hresp
  constructor
  · rintro rfl
    obtain ⟨hacc, hcnt⟩ := exec_keeps_encoder hi hexec
    exact ⟨hacc, hcnt, hemits.symbolsOf_eq_nil hi⟩
  · rintro rfl
    obtain ⟨hacc, hcnt, herr⟩ := exec_keeps_decoder hi hexec
    exact ⟨hacc, hcnt, herr, hemits.bytesOf_eq_nil hi⟩

/-- Any words are performed, and an engine to which they give no command is left as it was. -/
theorem exists_answers (ws : List Word) (s : State) :
    ∃ t rs, Answers ws s t rs ∧ ∀ b, commandsOf b ws = [] → Keeps b s t rs.flatten := by
  induction ws generalizing s with
  | nil => exact ⟨_, _, .nil s, fun b _ => .refl b s []⟩
  | cons w ws ih =>
    cases hd : decode w with
    | error e =>
      obtain ⟨t, rs, hrun, hkeeps⟩ := ih (raiseIllegal s)
      refine ⟨t, _, hrun.cons_of_illegal hd, fun b hb => ?_⟩
      obtain ⟨-, hws⟩ := List.forall_mem_cons.mp (commandsOf_eq_nil_iff.mp hb)
      exact (keeps_raiseIllegal b s).trans (hkeeps b (commandsOf_eq_nil_iff.mpr hws))
    | ok i =>
      obtain ⟨u, r, hexec, hresp, -⟩ := exec_next i s
      obtain ⟨t, rs, hrun, hkeeps⟩ := ih u
      refine ⟨t, _, hrun.cons_of_exec hd hexec hresp, fun b hb => ?_⟩
      obtain ⟨hw, hws⟩ := List.forall_mem_cons.mp (commandsOf_eq_nil_iff.mp hb)
      have hi : subBlock i ≠ b := by
        rintro rfl
        simp [commandOf_of_ok hd] at hw
      exact (keeps_of_exec hi hexec hresp).trans (hkeeps b (commandsOf_eq_nil_iff.mpr hws))

theorem Answers.keeps {b : SubBlock} {ws : List Word} {s t : State} {rs : List (List Token)} (h : Answers ws s t rs)
    (hb : commandsOf b ws = []) : Keeps b s t rs.flatten := by
  obtain ⟨t', rs', hrun, hkeeps⟩ := exists_answers ws s
  obtain ⟨rfl, rfl⟩ := h.unique hrun
  exact hkeeps b hb

/-! ### ENC.BYTE's window and its fields (R124) -/

theorem encWindow_eq_append (acc : BitVec 4) (b : Byte) : encWindow acc b = acc ++ b := by
  apply BitVec.eq_of_toNat_eq
  rw [encWindow_toNat, BitVec.toNat_append, ← Nat.shiftLeft_add_eq_or_of_lt b.isLt, Nat.shiftLeft_eq]

/-- A field that reaches from the low part of a word into its high part. -/
theorem slice_append_straddle {m w : Nat} (acc : BitVec m) (x : BitVec w) {lo j n : Nat} (h : lo + n = w) :
    slice lo (j + n) (acc ++ x) = acc.extractLsb' 0 j ++ x.extractLsb' lo n := by
  subst h
  ext i hi
  simp only [slice, BitVec.getElem_extractLsb', BitVec.getElem_append, BitVec.getLsbD_append]
  by_cases hin : i < n
  · simp [hin]
  · have hpos : lo + i - (lo + n) = i - n := by omega
    simp [hin, hpos]

theorem slice_append_of_le {m w : Nat} (acc : BitVec m) (x : BitVec w) {lo n : Nat} (h : lo + n ≤ w) :
    slice lo n (acc ++ x) = x.extractLsb' lo n :=
  BitVec.extractLsb'_append_eq_of_add_le h

/-- The pending bits kept are the field of the low k bits. -/
theorem setWidth_lowBits {m : Nat} (k n : Nat) (v : BitVec m) :
    (lowBits k v).setWidth n = (slice 0 k v).setWidth n := by
  ext i hi
  simp [lowBits_getLsbD, slice]

/-- ENC.BYTE cuts its digits from the pending bits joined to the byte, and keeps the byte's last bits (R124). -/
theorem exec_encByte (b : Byte) (s : State) {k left : Nat} (hk : s.encCnt.toNat + 8 = k) (hleft : encLeft k = left) :
    exec (.encByte b) s =
      .next { s with
        encAcc := (b.extractLsb' 0 left).setWidth 4
        encCnt := BitVec.ofNat 3 left
        responses := s.responses ++ [(encGroups (s.encAcc ++ b) k).map digitToken] } := by
  have hlt := s.encCnt.isLt
  have hle : left ≤ 8 := by
    unfold encLeft at hleft
    split at hleft <;> omega
  rw [← slice_append_of_le s.encAcc b (by omega), ← setWidth_lowBits, ← encWindow_eq_append, ← hleft, ← hk]
  rfl

/-- With no bit or one pending, eight or nine bits are one digit, and three or four are left. -/
theorem exec_encByte_one_digit {b : Byte} {s : State} {x : Symbol} (c : Nat) (hcnt : s.encCnt = BitVec.ofNat 3 c)
    (hc : c ≤ 1) (hx : slice (c + 3) 5 (s.encAcc ++ b) = x) :
    exec (.encByte b) s =
      .next { s with
        encAcc := (b.extractLsb' 0 (c + 3)).setWidth 4
        encCnt := BitVec.ofNat 3 (c + 3)
        responses := s.responses ++ [[.D x (alphabet x)]] } := by
  have hk : s.encCnt.toNat + 8 = c + 8 := by
    rw [hcnt, BitVec.toNat_ofNat]
    omega
  have hleft : encLeft (c + 8) = c + 3 := by
    unfold encLeft
    split <;> omega
  have hone : ¬ 5 ≤ c + 3 := by omega
  rw [exec_encByte b s hk hleft]
  simp [encGroups, hone, hx, digitToken]

/-- With two to four bits pending, ten to twelve bits are two digits, and none to two are left. -/
theorem exec_encByte_two_digits {b : Byte} {s : State} {x : Symbol} (c : Nat)
    (hcnt : s.encCnt = BitVec.ofNat 3 (c + 2)) (hc : c ≤ 2) (hx : slice (c + 5) 5 (s.encAcc ++ b) = x) :
    exec (.encByte b) s =
      .next { s with
        encAcc := (b.extractLsb' 0 c).setWidth 4
        encCnt := BitVec.ofNat 3 c
        responses := s.responses ++ [[.D x (alphabet x),
          .D (b.extractLsb' c 5) (alphabet (b.extractLsb' c 5))]] } := by
  have hk : s.encCnt.toNat + 8 = c + 10 := by
    rw [hcnt, BitVec.toNat_ofNat]
    omega
  have hy : slice c 5 (s.encAcc ++ b) = b.extractLsb' c 5 := slice_append_of_le _ _ (by omega)
  have hleft : encLeft (c + 10) = c := by
    unfold encLeft
    split <;> omega
  rw [exec_encByte b s hk hleft]
  simp [encGroups, hx, hy, digitToken]

/-- Zero bits have only zero groups. -/
theorem eq_zero_of_mem_encGroups_zero {k : Nat} {x : Symbol} (h : x ∈ encGroups 0#12 k) : x = 0#5 := by
  unfold encGroups at h
  split at h <;> simpa [slice] using h

/-! ### ENC.FLUSH (R125) -/

theorem exec_encFlush (s : State) :
    exec .encFlush s = .next ((s.writeEncoder 0#4 0#3).respond (flushDigits s)) := rfl

/-! ### Digit tokens (R128) -/

theorem mem_symbolsOf {ts : List Token} {x : Symbol} {ch : Byte} (h : Token.D x ch ∈ ts) : x ∈ symbolsOf ts :=
  List.mem_filterMap.mpr ⟨_, h, rfl⟩

/-- The encoder's commands emit digit tokens of symbols only. -/
theorem encoder_response {i : Instr} {s t : State} {r : List Token} (hi : subBlock i = .encoder)
    (hexec : exec i s = .next t) (hresp : t.responses = s.responses ++ [r]) :
    ∃ xs : List Symbol, r = xs.map digitToken := by
  have hadded {q : List Token} (hq : t.responses = s.responses ++ [q]) : r = q := by
    simpa using hresp.symm.trans hq
  cases i with
  | encInit =>
    cases hexec
    exact ⟨[], hadded rfl⟩
  | encByte b =>
    cases hexec
    exact ⟨_, hadded rfl⟩
  | encFlush =>
    cases hexec
    obtain rfl := hadded rfl
    unfold flushDigits
    split
    next => exact ⟨[_], rfl⟩
    next => exact ⟨[], rfl⟩
  | _ => cases hi

/-- A digit token emitted is its symbol with the symbol's alphabet character. -/
theorem digit_of_exec {i : Instr} {s t : State} {r : List Token} {x : Symbol} {ch : Byte} (hexec : exec i s = .next t)
    (hresp : t.responses = s.responses ++ [r]) (hmem : Token.D x ch ∈ r) : ch = alphabet x := by
  by_cases hi : subBlock i = .encoder
  · obtain ⟨xs, rfl⟩ := encoder_response hi hexec hresp
    obtain ⟨y, -, hy⟩ := List.mem_map.mp hmem
    cases hy
    rfl
  · have hnone := (emits_of_exec hexec hresp).symbolsOf_eq_nil hi
    have hsome := mem_symbolsOf hmem
    simp [hnone] at hsome

/-! ### The padded last group (R125, R147) -/

/-- The pending bits shifted to the top of n bits stand there in order, and zeros stand below them. -/
theorem getMsbD_pad {m n k : Nat} (acc : BitVec m) (hk : k ≤ n) {i : Nat} (hi : i < n) :
    (acc.setWidth n <<< (n - k)).getMsbD i = (decide (i < k) && acc.getLsbD (k - 1 - i)) := by
  by_cases hik : i < k
  · have hpos : n - 1 - i - (n - k) = k - 1 - i := by omega
    have hlow : ¬ n - 1 - i < n - k := by omega
    have hindex : n - 1 - i < n := by omega
    simp [BitVec.getMsbD, hi, hik, hpos, hlow, hindex]
  · have hlow : n - 1 - i < n - k := by omega
    simp [BitVec.getMsbD, hik, hlow]

theorem bitsOf_pad {m n k : Nat} (acc : BitVec m) (hk : k ≤ n) :
    bitsOf (acc.setWidth n <<< (n - k)) = pendingBits k acc ++ List.replicate (n - k) false := by
  refine List.ext_getElem (by simp [bitsOf, pendingBits, hk]) fun i hi _ => ?_
  rw [length_bitsOf] at hi
  simp [bitsOf, pendingBits, List.getElem_append, getMsbD_pad acc hk hi]

/-! ### The encode job (R126) -/

/-- The encoder's pending bits, earliest first (R23). -/
def State.encPending (s : State) : List Bool :=
  pendingBits s.encCnt.toNat s.encAcc

/-- The decoder's pending bits, earliest first (R24). -/
def State.decPending (s : State) : List Bool :=
  pendingBits s.decCnt.toNat s.decAcc

/-- With at most four bits pending, the digit of ENC.FLUSH, if any, has those bits and fewer than five zeros. -/
theorem bits_flushDigits {s : State} (h : s.encCnt.toNat ≤ 4) :
    ∃ p < 5, (symbolsOf (flushDigits s)).flatMap bitsOf = s.encPending ++ List.replicate p false := by
  unfold flushDigits State.encPending
  split
  next hpos =>
    refine ⟨5 - s.encCnt.toNat, by omega, ?_⟩
    simpa [symbolsOf, digitToken, padSymbol] using bitsOf_pad (n := 5) s.encAcc (by omega)
  next hzero =>
    have hcnt : s.encCnt.toNat = 0 := by omega
    exact ⟨0, by omega, by simp [hcnt, symbolsOf, pendingBits]⟩

/-- The bits of the byte DEC.FLUSH emits, if any, are the pending bits and fewer than eight zeros. -/
theorem bits_flushBytes (s : State) (v : Byte) :
    ∃ q < 8, (bytesOf (flushBytes s ++ [.W v])).flatMap bitsOf = s.decPending ++ List.replicate q false := by
  have hlt := s.decCnt.isLt
  unfold flushBytes State.decPending
  split
  next hpos =>
    refine ⟨8 - s.decCnt.toNat, by omega, ?_⟩
    simpa [bytesOf, padByte] using bitsOf_pad (n := 8) s.decAcc (by omega)
  next hzero =>
    have hcnt : s.decCnt.toNat = 0 := by omega
    exact ⟨0, by omega, by simp [hcnt, bytesOf, pendingBits]⟩

/-- ENC.BYTE commands among other words pass the pending bits and the bytes' bits on, in order. -/
theorem answers_encBytes {ws : List Word} {bytes : List Byte} {s : State} (hcnt : s.encCnt.toNat ≤ 4)
    (h : commandsOf .encoder ws = bytes.map .encByte) :
    ∃ t rs, Answers ws s t rs ∧ t.encCnt.toNat ≤ 4 ∧
      s.encPending ++ bytes.flatMap bitsOf = (symbolsOf rs.flatten).flatMap bitsOf ++ t.encPending := by
  induction bytes generalizing ws s with
  | nil =>
    obtain ⟨t, rs, hrun, hkeeps⟩ := exists_answers ws s
    obtain ⟨hacc, hcnt', hdigits⟩ := (hkeeps _ h).encoder rfl
    exact ⟨t, rs, hrun, hcnt' ▸ hcnt, by simp [State.encPending, hacc, hcnt', hdigits]⟩
  | cons b bytes ih =>
    obtain ⟨pre, w, post, rfl, hpre, hw, -, hpost⟩ := commandsOf_eq_cons h
    obtain ⟨u, qs, hrunPre, hkeeps⟩ := exists_answers pre s
    obtain ⟨hacc, hcnt', hdigits⟩ := (hkeeps _ hpre).encoder rfl
    have hu : u.encCnt.toNat ≤ 4 := hcnt' ▸ hcnt
    obtain ⟨v, r, hexec, hresp, hbits⟩ := encByteConservesTheBitStream u b hu
    have hv : v.encCnt.toNat ≤ 4 := by
      cases hexec
      have hleft := encLeft_le (u.encCnt.toNat + 8) (by omega) (by omega)
      rwa [appendByte_encCnt_toNat b hu]
    obtain ⟨t, rs, hrunPost, ht, hrest⟩ := ih hv hpost
    refine ⟨t, _, hrunPre.append (hrunPost.cons_of_exec hw hexec hresp), ht, ?_⟩
    calc s.encPending ++ (b :: bytes).flatMap bitsOf
        = (pendingBits u.encCnt.toNat u.encAcc ++ bitsOf b) ++ bytes.flatMap bitsOf := by
          simp [State.encPending, hacc, hcnt']
      _ = (symbolsOf r).flatMap bitsOf ++ (v.encPending ++ bytes.flatMap bitsOf) := by
          rw [hbits, List.append_assoc, State.encPending]
      _ = _ := by
          rw [hrest]
          simp [symbolsOf_append, hdigits]

/-- An encode job among other words emits ENCODE of its bytes and leaves the encoder clear (R126). -/
theorem answers_encJob {ws : List Word} {bytes : List Byte} {s : State} (hcnt : s.encCnt = 0#3)
    (h : commandsOf .encoder ws = encJob bytes) :
    ∃ t rs, Answers ws s t rs ∧ symbolsOf rs.flatten = encodeBytes bytes ∧ t.encCnt = 0#3 ∧ t.encAcc = 0#4 := by
  obtain ⟨pre, w, post, rfl, hpre, hw, hpost⟩ := commandsOf_eq_concat h
  obtain ⟨u, rs, hrunPre, hu, hbits⟩ := answers_encBytes (s := s) (by simp [hcnt]) hpre
  obtain ⟨p, hp, hpad⟩ := bits_flushDigits hu
  obtain ⟨t, qs, hrunPost, hkeeps⟩ := exists_answers post ((u.writeEncoder 0#4 0#3).respond (flushDigits u))
  obtain ⟨hacc, hcnt', hdigits⟩ := (hkeeps _ hpost).encoder rfl
  refine ⟨t, _, hrunPre.append (hrunPost.cons_of_exec hw (exec_encFlush u) rfl), eq_encodeBytes_of_bits hp ?_, hcnt',
    hacc⟩
  have hclear : s.encPending = [] := by simp [State.encPending, hcnt, pendingBits]
  rw [hclear, List.nil_append] at hbits
  rw [List.flatten_append, List.flatten_cons, symbolsOf_append, symbolsOf_append, hdigits, List.append_nil,
    List.flatMap_append, hpad, ← List.append_assoc, ← hbits]

/-- The words of ENC.JOB are one encode job (R69). -/
theorem commandsOf_encJob (bytes : List Byte) : commandsOf .encoder ((encJob bytes).map encode) = encJob bytes := by
  rw [commandsOf_map_encode]
  simp [encJob, List.filter_map, Function.comp_def, subBlock]

/-- The words of ENC.JOB hold no command of another sub-block. -/
theorem commandsOf_encJob_eq_nil {b : SubBlock} (hb : b ≠ .encoder) (bytes : List Byte) :
    commandsOf b ((encJob bytes).map encode) = [] := by
  rw [commandsOf_map_encode]
  simp [encJob, subBlock, Ne.symm hb]

/-! ### The decode job (R149) -/

/-- A command that carries a symbol appends it to the decode job (R144, R145). -/
theorem exec_of_carriedSymbol {i : Instr} {x : Symbol} (h : carriedSymbol i = some x) (s : State) :
    exec i s = .next (appendSymbol x s) := by
  cases i with
  | decSym y =>
    cases h
    rfl
  | decChar c =>
    obtain ⟨hc, rfl⟩ : charValid c = true ∧ charSymbol c = x := by simpa [carriedSymbol] using h
    exact exec_decChar_valid hc s
  | _ => cases h

/-- Commands that carry symbols, among other words, pass the pending bits and the symbols' bits on, in order. -/
theorem answers_decSyms {ws : List Word} {syms : List Symbol} (s : State)
    (h : (commandsOf .decoder ws).map carriedSymbol = syms.map some) :
    ∃ t rs, Answers ws s t rs ∧ t.decErr = s.decErr ∧
      s.decPending ++ syms.flatMap bitsOf = (bytesOf rs.flatten).flatMap bitsOf ++ t.decPending := by
  induction syms generalizing ws s with
  | nil =>
    obtain ⟨t, rs, hrun, hkeeps⟩ := exists_answers ws s
    obtain ⟨hacc, hcnt, herr, hbytes⟩ := (hkeeps _ (List.map_eq_nil_iff.mp h)).decoder rfl
    exact ⟨t, rs, hrun, herr, by simp [State.decPending, hacc, hcnt, hbytes]⟩
  | cons x syms ih =>
    obtain ⟨i, is, hcommands, hi, his⟩ := List.map_eq_cons_iff.mp h
    obtain ⟨pre, w, post, rfl, hpre, hw, -, hpost⟩ := commandsOf_eq_cons hcommands
    obtain ⟨u, qs, hrunPre, hkeeps⟩ := exists_answers pre s
    obtain ⟨hacc, hcnt, herr, hbytes⟩ := (hkeeps _ hpre).decoder rfl
    obtain ⟨v, r, hexec, hresp, hbits⟩ := decSymConservesTheBitStream u x
    obtain rfl : appendSymbol x u = v := by simpa [exec, execDecSym] using hexec
    obtain ⟨t, rs, hrunPost, herr', hrest⟩ := ih (appendSymbol x u) (hpost ▸ his)
    refine ⟨t, _, hrunPre.append (hrunPost.cons_of_exec hw (exec_of_carriedSymbol hi u) hresp), herr'.trans herr, ?_⟩
    calc s.decPending ++ (x :: syms).flatMap bitsOf
        = (pendingBits u.decCnt.toNat u.decAcc ++ bitsOf x) ++ syms.flatMap bitsOf := by
          simp [State.decPending, hacc, hcnt]
      _ = (bytesOf r).flatMap bitsOf ++ ((appendSymbol x u).decPending ++ syms.flatMap bitsOf) := by
          rw [hbits, List.append_assoc, State.decPending]
      _ = _ := by
          rw [hrest]
          simp [bytesOf_append, hbytes]

/-- A decode job of symbols emits DECODE of them. -/
theorem answers_symJob (syms : List Symbol) {s : State} (hcnt : s.decCnt = 0#3) :
    ∃ t rs, Answers ((symJob syms).map encode) s t rs ∧ bytesOf rs.flatten = decodeSymbols syms := by
  have hcarried : (commandsOf .decoder ((syms.map Instr.decSym).map encode)).map carriedSymbol = syms.map some := by
    rw [commandsOf_map_encode]
    simp [List.filter_map, Function.comp_def, subBlock, carriedSymbol]
  obtain ⟨t, rs, hrun, -, hbits⟩ := answers_decSyms s hcarried
  obtain ⟨q, hq, hpad⟩ := bits_flushBytes t (verdictWord t.decErr)
  have hflush := (Answers.nil _).cons_of_exec (decode_encode .decFlush) (s := t) rfl rfl
  rw [symJob, List.map_append]
  refine ⟨_, _, hrun.append hflush, eq_decodeSymbols_of_bits hq ?_⟩
  have hclear : s.decPending = [] := by simp [State.decPending, hcnt, pendingBits]
  rw [hclear, List.nil_append] at hbits
  rw [List.flatten_append, List.flatten_singleton, bytesOf_append, List.flatMap_append, hpad, ← List.append_assoc,
    ← hbits]

end Sys2Proof.Machine

open Sys2Proof Sys2Proof.Machine

/-- Settles O39: the bits of the job's digits are the bytes' bits and fewer than five zeros. -/
theorem encodeJobEmitsEncodeOfItsBytes : Obligations.EncodeJobEmitsEncodeOfItsBytes := by
  unfold Obligations.EncodeJobEmitsEncodeOfItsBytes
  intro s ws bytes hcnt hwords
  obtain ⟨t, rs, hrun, hdigits, hcnt', hacc⟩ := answers_encJob hcnt hwords
  exact ⟨t, rs, hrun.runs, hrun.responses, hdigits, hdigits ▸ length_encodeBytes bytes, hcnt', hacc⟩

/-- Settles O44: the decode job finds its engine as the encode job found it, and emits DECODE of ENCODE of the bytes. -/
theorem decodingAnEncodedJobGivesItsBytes : Obligations.DecodingAnEncodedJobGivesItsBytes := by
  unfold Obligations.DecodingAnEncodedJobGivesItsBytes
  intro s bytes hencCnt hdecCnt _
  obtain ⟨t, rs, hrun, hdigits, -, -⟩ := answers_encJob hencCnt (commandsOf_encJob bytes)
  obtain ⟨-, hcnt, -, -⟩ := (hrun.keeps (commandsOf_encJob_eq_nil (by decide) bytes)).decoder rfl
  obtain ⟨u, qs, hrun', hbytes⟩ := answers_symJob (encodeBytes bytes) (hcnt.trans hdecCnt)
  refine ⟨t, u, rs, qs, hrun.runs, hrun.responses, hdigits, hdigits ▸ hrun'.runs, hrun'.responses,
    hbytes.trans (decodeSymbols_encodeBytes bytes), ?_⟩
  rw [hbytes, length_decodeSymbols, length_encodeBytes]

/-- Settles O40: a job starts where the job before it ended; without a flush between them the two are one job. -/
theorem encodeJobsConcatenate : Obligations.EncodeJobsConcatenate := by
  unfold Obligations.EncodeJobsConcatenate
  intro s xs ys hcnt
  refine ⟨?_, ?_, fun h => encodeBytes_append h ys⟩
  · obtain ⟨t, rs, hrun, hdigits, hcnt', -⟩ := answers_encJob hcnt (commandsOf_encJob xs)
    obtain ⟨u, qs, hrun', hdigits', -, -⟩ := answers_encJob hcnt' (commandsOf_encJob ys)
    have hboth := hrun.append hrun'
    rw [← List.map_append] at hboth
    exact ⟨u, rs ++ qs, hboth.runs, hboth.responses, by rw [List.flatten_append, symbolsOf_append, hdigits, hdigits']⟩
  · obtain ⟨t, rs, hrun, hdigits, -, -⟩ := answers_encJob hcnt (commandsOf_encJob (xs ++ ys))
    have hjob : encJob (xs ++ ys) = xs.map .encByte ++ encJob ys := by simp [encJob]
    exact ⟨t, rs, hjob ▸ hrun.runs, hrun.responses, hdigits⟩

/-- Settles O22: the digits and the bits kept are fields of the pending bits joined to the byte, read at each count. -/
theorem encByteEmitsEveryCompleteGroup : Obligations.EncByteEmitsEveryCompleteGroup := by
  unfold Obligations.EncByteEmitsEveryCompleteGroup
  refine ⟨operandRow_of_encode fun _ => rfl, fun b s hcnt => ?_, fun b s x hcnt hx => ?_,
    fun b s x y hcnt hx hy => ?_, fun b s x y hcnt hx hy => ?_, fun b s x y hcnt hx hy => ?_,
    fun b s t hlegal ht => exec_legal _ hlegal ht, fun s t r hacc _ hexec hresp => ?_⟩
  · exact exec_encByte_one_digit 0 hcnt (by decide) (slice_append_of_le _ _ (by decide))
  · have hkept : (b.extractLsb' 0 4).setWidth 4 = b.extractLsb' 0 4 := BitVec.setWidth_eq _
    rw [exec_encByte_one_digit 1 hcnt (by decide) ((slice_append_straddle (j := 1) _ _ (by decide)).trans hx.symm),
      hkept]
  · subst hy
    rw [exec_encByte_two_digits 0 hcnt (by decide) ((slice_append_straddle (j := 2) _ _ (by decide)).trans hx.symm)]
    simp
  · subst hy
    exact exec_encByte_two_digits 1 hcnt (by decide) ((slice_append_straddle (j := 3) _ _ (by decide)).trans hx.symm)
  · subst hy
    have hall : s.encAcc.extractLsb' 0 4 = s.encAcc := BitVec.extractLsb'_eq_self
    rw [← hall] at hx
    exact exec_encByte_two_digits 2 hcnt (by decide) ((slice_append_straddle (j := 4) _ _ (by decide)).trans hx.symm)
  · rw [exec_encByte _ _ rfl rfl, hacc] at hexec
    cases hexec
    obtain rfl : (encGroups 0#12 (s.encCnt.toNat + 8)).map digitToken = r := by simpa using hresp
    refine ⟨by simp, fun token htoken => ?_⟩
    obtain ⟨x, hx, rfl⟩ := List.mem_map.mp htoken
    rw [eq_zero_of_mem_encGroups_zero hx]
    rfl

/-- Settles O23: the digit is the pending bits shifted to its top. -/
theorem encFlushEmitsThePaddedDigit : Obligations.EncFlushEmitsThePaddedDigit := by
  unfold Obligations.EncFlushEmitsThePaddedDigit
  refine ⟨plainRow_of_encode rfl (by decide), fun s hcnt => ?_, fun s hpos hle => ?_⟩
  · have hnone : flushDigits s = [] := by simp [flushDigits, hcnt]
    rw [exec_encFlush, hnone]
    rfl
  · have hdigit : flushDigits s = [digitToken (padSymbol s.encAcc s.encCnt)] := if_pos hpos
    refine ⟨padSymbol s.encAcc s.encCnt, fun i hi => getMsbD_pad s.encAcc (by omega) hi, ?_⟩
    rw [exec_encFlush, hdigit]
    rfl

/-- Settles O32: the alphabet character of a symbol is canonical, and its value is the symbol. -/
theorem emittedDigitsAreCanonical : Obligations.EmittedDigitsAreCanonical := by
  unfold Obligations.EmittedDigitsAreCanonical
  intro i s t r x ch hexec hresp hmem
  obtain rfl := digit_of_exec hexec hresp hmem
  exact ⟨rfl, canonRom_alphabet x, valueRom_alphabet x⟩

/-- Settles O21: ENC.INIT's row, and its clear, which is what `exec` performs. -/
theorem encInitClearsTheEncoder : Obligations.EncInitClearsTheEncoder := by
  unfold Obligations.EncInitClearsTheEncoder
  exact ⟨plainRow_of_encode rfl (by decide), fun _ => rfl⟩

end

section
/-! Proofs about the decoder (42_decoder.md): its four commands (R143 to R147), the verdict (R148), the job laws (R149,
R150) and the round trip (R151). -/

namespace Sys2Proof

/-- The row of DEC.SYM: its word with rsv = 0000 and opd[7:5] = 000, and R63 (b) or (d) with any other field. -/
theorem decode_symbolRow_isError {rsv : BitVec 4} {hi : BitVec 3} (h : rsv ≠ 0#4 ∨ hi ≠ 0#3) (x : Symbol) :
    ∃ e, decode (0x9#4 ++ rsv ++ (hi ++ x)) = .error e := by
  have hraw : RawCommand.ofWord (0x9#4 ++ rsv ++ (hi ++ x)) = ⟨0x9#4, rsv, hi ++ x⟩ :=
    ofWord_toWord ⟨0x9#4, rsv, hi ++ x⟩
  have hhigh : (hi ++ x).extractLsb' 5 3 = hi := BitVec.extractLsb'_append_eq_left
  rw [decode_isError_iff, hraw, wellFormed_eq_false_iff, hhigh]
  exact .inr (h.imp_right fun hhi => .inr ⟨rfl, hhi⟩)

end Sys2Proof

namespace Sys2Proof.Machine

/-! ### DEC.SYM's window and its fields (R144) -/

theorem decWindow_eq_append (acc : BitVec 7) (x : Symbol) : decWindow acc x = acc ++ x := by
  apply BitVec.eq_of_toNat_eq
  rw [decWindow_toNat, BitVec.toNat_append, ← Nat.shiftLeft_add_eq_or_of_lt x.isLt, Nat.shiftLeft_eq]

/-- A field that has all of the low part of a word. -/
theorem slice_append_all {m w : Nat} (acc : BitVec m) (x : BitVec w) (j : Nat) :
    slice 0 (j + w) (acc ++ x) = acc.extractLsb' 0 j ++ x := by
  rw [slice_append_straddle acc x (Nat.zero_add w), BitVec.extractLsb'_eq_self]

/-- DEC.SYM cuts its byte from the pending bits joined to the symbol, and keeps the last bits (R144). -/
theorem exec_decSym (x : Symbol) (s : State) {k left : Nat} (hk : s.decCnt.toNat + 5 = k) (hleft : decLeft k = left) :
    exec (.decSym x) s =
      .next { s with
        decAcc := (slice 0 left (s.decAcc ++ x)).setWidth 7
        decCnt := BitVec.ofNat 3 left
        responses := s.responses ++ [decBytes (s.decAcc ++ x) k] } := by
  rw [← setWidth_lowBits, ← decWindow_eq_append, ← hleft, ← hk]
  rfl

/-- With at most two bits pending no byte is complete, and all bits are kept. -/
theorem exec_decSym_no_byte (x : Symbol) {s : State} (c : Nat) (hcnt : s.decCnt = BitVec.ofNat 3 c) (hc : c ≤ 2) :
    exec (.decSym x) s =
      .next { s with
        decAcc := (s.decAcc.extractLsb' 0 c ++ x).setWidth 7
        decCnt := BitVec.ofNat 3 (c + 5)
        responses := s.responses ++ [[]] } := by
  have hk : s.decCnt.toNat + 5 = c + 5 := by
    rw [hcnt, BitVec.toNat_ofNat]
    omega
  have hfew : ¬ 8 ≤ c + 5 := by omega
  rw [exec_decSym x s hk (if_neg hfew), slice_append_all]
  simp [decBytes, hfew]

/-- With three or more bits pending a byte is complete, and the symbol's last bits are left. -/
theorem exec_decSym_byte (x : Symbol) {s : State} {b : Byte} (left : Nat)
    (hcnt : s.decCnt = BitVec.ofNat 3 (left + 3)) (hle : left ≤ 4) (hb : slice left 8 (s.decAcc ++ x) = b) :
    exec (.decSym x) s =
      .next { s with
        decAcc := (x.extractLsb' 0 left).setWidth 7
        decCnt := BitVec.ofNat 3 left
        responses := s.responses ++ [[.B b]] } := by
  have hk : s.decCnt.toNat + 5 = left + 8 := by
    rw [hcnt, BitVec.toNat_ofNat]
    omega
  have hleft : decLeft (left + 8) = left := if_pos (by omega)
  have hkept : slice 0 left (s.decAcc ++ x) = x.extractLsb' 0 left := slice_append_of_le _ _ (by omega)
  rw [exec_decSym x s hk hleft, hkept]
  simp [decBytes, hb]

/-! ### DEC.CHAR's symbol (R145) -/

/-- The symbol a character carries is the one its value extends. -/
theorem charSymbol_of_valueRom {c : Byte} {x : Symbol} (h : valueRom c = x.setWidth 8) : charSymbol c = x := by
  rw [charSymbol, h, slice, extract_setWidth_symbol]

theorem charValid_of_canonRom_ne_zero {c : Byte} (h : canonRom c ≠ 0x00#8) : charValid c = true := by
  simp [charValid, h]

/-! ### DEC.FLUSH (R147) -/

/-- What DEC.FLUSH answers: the padded byte, if any bits are pending, and the verdict word. -/
def State.flushResponse (s : State) : List Token :=
  flushBytes s ++ [.W (verdictWord s.decErr)]

/-- The state after DEC.FLUSH. -/
def State.decFlushed (s : State) : State :=
  ((s.writeDecoder 0#7 0#3).writeDecErr errClear).respond s.flushResponse

theorem exec_decFlush (s : State) : exec .decFlush s = .next s.decFlushed := rfl

theorem flushResponse_eq_bytes_verdict (s : State) :
    s.flushResponse = (bytesOf s.flushResponse).map .B ++ [.W (verdictWord s.decErr)] := by
  unfold State.flushResponse
  obtain h | ⟨b, h⟩ := flushBytes_append_word s (verdictWord s.decErr) <;> rw [h] <;> rfl

theorem getLast?_flushResponse (s : State) : s.flushResponse.getLast? = some (.W (verdictWord s.decErr)) :=
  List.getLast?_concat

/-- DEC.FLUSH among other words. -/
theorem Answers.decFlush {pre post : List Word} {s u t : State} {rs qs : List (List Token)} (h : Answers pre s u rs)
    (h' : Answers post u.decFlushed t qs) :
    Answers (pre ++ encode .decFlush :: post) s t (rs ++ u.flushResponse :: qs) :=
  h.append (h'.cons_of_exec (decode_encode _) (exec_decFlush u) rfl)

/-! ### The decode job (R149) -/

/-- Words that carry symbols to a decoder between jobs answer, with the flush after them, DECODE of the symbols, and
leave DEC_ERR as it was. -/
theorem Answers.bytesOf_decJob {ws : List Word} {syms : List Symbol} {s u : State} {rs : List (List Token)}
    (h : Answers ws s u rs) (hcnt : s.decCnt = 0#3)
    (hws : (commandsOf .decoder ws).map carriedSymbol = syms.map some) :
    bytesOf (rs.flatten ++ u.flushResponse) = decodeSymbols syms ∧ u.decErr = s.decErr := by
  obtain ⟨u', rs', hrun, herr, hbits⟩ := answers_decSyms s hws
  obtain ⟨rfl, rfl⟩ := h.unique hrun
  obtain ⟨q, hq, hpad⟩ := bits_flushBytes u (verdictWord u.decErr)
  refine ⟨eq_decodeSymbols_of_bits hq ?_, herr⟩
  have hclear : s.decPending = [] := by simp [State.decPending, hcnt, pendingBits]
  rw [hclear, List.nil_append] at hbits
  rw [bytesOf_append, List.flatMap_append, State.flushResponse, hpad, ← List.append_assoc, ← hbits]

/-! ### The verdict (R148) -/

/-- The words that raise INVALID_DIGIT are those of DEC.CHAR with an invalid character (R200). -/
theorem errorOf_eq_invalidDigit_iff (w : Word) :
    errorOf w = some .invalidDigit ↔ ∃ c : Byte, decode w = .ok (.decChar c) ∧ canonRom c = 0x00#8 := by
  unfold errorOf
  split
  next e hd => simp [hd]
  next c hd => simp [hd, charValid]
  next i hchar hd =>
    simp only [reduceCtorEq, false_iff]
    rintro ⟨c, hc, -⟩
    cases hd.symm.trans hc
    exact hchar c rfl

/-- A command that does not clear DEC_ERR sets it when its word raises INVALID_DIGIT and keeps it otherwise. -/
theorem exec_decErr {w : Word} {i : Instr} {s t : State} (hd : decode w = .ok i) (hinit : i ≠ .decInit)
    (hflush : i ≠ .decFlush) (h : exec i s = .next t) :
    t.decErr = if errorOf w = some .invalidDigit then 1#1 else s.decErr := by
  by_cases hchar : ∃ c, i = .decChar c
  · obtain ⟨c, rfl⟩ := hchar
    rw [exec_decChar_decErr h]
    simp [errorOf_eq_invalidDigit_iff, hd]
  · rw [not_exists] at hchar
    rw [exec_keeps_decErr hchar hinit hflush h]
    simp [errorOf_eq_invalidDigit_iff, hd, hchar]

/-- Over words that do not clear it, DEC_ERR says whether one of them raised INVALID_DIGIT (R146, R148). -/
theorem answers_decErr {ws : List Word} (hws : ∀ w ∈ ws, decode w ≠ .ok .decInit ∧ decode w ≠ .ok .decFlush)
    (s : State) :
    ∃ t rs, Answers ws s t rs ∧ t.decErr = if ∃ w ∈ ws, errorOf w = some .invalidDigit then 1#1 else s.decErr := by
  induction ws generalizing s with
  | nil => exact ⟨_, _, .nil s, by simp⟩
  | cons w ws ih =>
    obtain ⟨⟨hinit, hflush⟩, hrest⟩ := List.forall_mem_cons.mp hws
    cases hd : decode w with
    | error e =>
      obtain ⟨t, rs, hrun, herr⟩ := ih hrest (raiseIllegal s)
      have hw : errorOf w ≠ some .invalidDigit := by simp [errorOf_eq_invalidDigit_iff, hd]
      exact ⟨t, _, hrun.cons_of_illegal hd, by simp [herr, hw, raiseIllegal_eq]⟩
    | ok i =>
      obtain ⟨u, r, hexec, hresp, -⟩ := exec_next i s
      obtain ⟨t, rs, hrun, herr⟩ := ih hrest u
      have hu := exec_decErr hd (by simpa [hd] using hinit) (by simpa [hd] using hflush) hexec
      refine ⟨t, _, hrun.cons_of_exec hd hexec hresp, ?_⟩
      rw [herr, hu]
      by_cases hw : errorOf w = some .invalidDigit <;> simp [hw]

/-- DEC.INIT, DEC.FLUSH and reset clear DEC_ERR, wherever they stand in the stream. -/
theorem step_clears_decErr {start : HostInput}
    (h : start = .command (encode .decInit) ∨ start = .command (encode .decFlush) ∨ start = .reset)
    (s : State) (ins : List HostInput) :
    ∃ t rs, step { s with inputs := start :: ins } = .next t ∧ t.inputs = ins ∧ t.responses = s.responses ++ rs ∧
      t.decErr = 0#1 := by
  obtain rfl | rfl | rfl := h
  · exact ⟨_, [[]], step_of_legal_word rfl (decode_encode .decInit), rfl, rfl, rfl⟩
  · exact ⟨_, [s.flushResponse], step_of_legal_word rfl (decode_encode .decFlush), rfl, rfl, rfl⟩
  · exact ⟨_, [], step_of_reset rfl, rfl, by simp [applyReset_eq], rfl⟩

/-- Where only words are presented, running them all is presenting them. -/
theorem run_eq_runWords {ws : List Word} {s : State} (h : s.inputs = ws.map .command) :
    run ws.length s = runWords ws s := by
  rw [runWords, ← h]

/-! ### The character job (R150) -/

/-- DEC.CHAR commands emit byte tokens only. -/
theorem answers_decChars (chars : List Byte) (s : State) :
    ∃ t rs, Answers ((chars.map Instr.decChar).map encode) s t rs ∧ rs.flatten = (bytesOf rs.flatten).map .B := by
  induction chars generalizing s with
  | nil => exact ⟨_, _, .nil s, rfl⟩
  | cons c chars ih =>
    obtain ⟨u, r, hexec, hresp, -⟩ := exec_next (.decChar c) s
    obtain ⟨t, rs, hrun, hrs⟩ := ih u
    have hr : r = (bytesOf r).map .B := by obtain rfl | ⟨b, rfl⟩ := emits_of_exec hexec hresp <;> rfl
    refine ⟨t, r :: rs, hrun.cons_of_exec (decode_encode _) hexec hresp, ?_⟩
    rw [List.flatten_cons, bytesOf_append, List.map_append, ← hr, ← hrs]

/-- After DEC.CHAR commands DEC_ERR says whether a character was invalid. -/
theorem Answers.decErr_decChars {chars : List Byte} {s t : State} {rs : List (List Token)}
    (h : Answers ((chars.map Instr.decChar).map encode) s t rs) :
    t.decErr = if ∃ c ∈ chars, canonRom c = 0x00#8 then 1#1 else s.decErr := by
  have hkeep : ∀ w ∈ (chars.map Instr.decChar).map encode, decode w ≠ .ok .decInit ∧ decode w ≠ .ok .decFlush := by
    simp [decode_encode]
  have hinvalid : (∃ w ∈ (chars.map Instr.decChar).map encode, errorOf w = some .invalidDigit) ↔
      ∃ c ∈ chars, canonRom c = 0x00#8 := by
    simp [errorOf_eq_invalidDigit_iff, decode_encode]
  obtain ⟨t', rs', hrun, herr⟩ := answers_decErr hkeep s
  obtain ⟨rfl, rfl⟩ := h.unique hrun
  simpa only [hinvalid] using herr

/-- Valid characters carry their values. -/
theorem carriedSymbol_decChars {chars : List Byte} (h : ∀ c ∈ chars, canonRom c ≠ 0x00#8) :
    (commandsOf .decoder ((chars.map Instr.decChar).map encode)).map carriedSymbol =
      (chars.map charSymbol).map some := by
  rw [commandsOf_map_encode]
  simp only [List.filter_map, Function.comp_def, subBlock, beq_self_eq_true, List.filter_true, List.map_map]
  exact List.map_congr_left fun c hc => by simp [carriedSymbol, charValid_of_canonRom_ne_zero (h c hc)]

/-- DEC.JOB answers byte tokens and the verdict, and with valid characters only the bytes are DECODE of their values
(R150). -/
theorem answers_charJob (chars : List Byte) (s : State) :
    ∃ t rs bytes, Answers ((decJob chars).map encode) s t rs ∧
      rs.flatten = bytes.map .B ++ [.W (if ∃ c ∈ chars, canonRom c = 0x00#8 then 0x01#8 else 0x00#8)] ∧
      ((∀ c ∈ chars, canonRom c ≠ 0x00#8) → bytes = decodeSymbols (chars.map charSymbol)) := by
  obtain ⟨v, rs, hrun, htokens⟩ := answers_decChars chars (((s.writeDecoder 0#7 0#3).writeDecErr errClear).respond [])
  have hverdict : verdictWord v.decErr = if ∃ c ∈ chars, canonRom c = 0x00#8 then 0x01#8 else 0x00#8 := by
    rw [hrun.decErr_decChars, apply_ite verdictWord]
    rfl
  have hwords : (decJob chars).map encode =
      encode .decInit :: ((chars.map Instr.decChar).map encode ++ [encode .decFlush]) := by
    simp [decJob]
  rw [hwords]
  refine ⟨_, _, bytesOf (rs.flatten ++ v.flushResponse),
    (hrun.decFlush (.nil _)).cons_of_exec (decode_encode .decInit) (s := s) rfl rfl, ?_, fun hvalid => ?_⟩
  · rw [bytesOf_append, List.map_append, List.append_assoc, ← hverdict, ← flushResponse_eq_bytes_verdict, ← htokens]
    simp
  · obtain ⟨hbytes, -⟩ := hrun.bytesOf_decJob rfl (carriedSymbol_decChars hvalid)
    exact hbytes

/-! ### The round trip (R151) -/

/-- The bits of DECODE are the symbols' bits, zero-filled (R140). -/
theorem bits_decodeSymbols (syms : List Symbol) :
    (decodeSymbols syms).flatMap bitsOf =
      syms.flatMap bitsOf ++ List.replicate (8 * decodedSize syms.length - 5 * syms.length) false := by
  have hbounds := decodedSize_bounds syms.length
  refine flatMap_bitsOf_regroup ?_
  rw [List.length_append, length_flatMap_bitsOf, List.length_replicate]
  omega

theorem flatMap_bitsOf_replicate_zero (n : Nat) :
    (List.replicate n 0#5).flatMap bitsOf = List.replicate (5 * n) false := by
  have hzero : bitsOf 0#5 = List.replicate 5 false := by decide
  rw [List.flatMap_replicate, hzero, List.flatten_replicate_replicate, Nat.mul_comm]

/-- R151's table: the zero symbols of d symbols hold the zeros that fill DECODE's last byte, and fewer than five more. -/
theorem zeroSymbols_bounds (d : Nat) {q n : Nat} (hq : 8 * decodedSize d - 5 * d = q)
    (hn : [0, 1, 2, 1, 1, 2, 1, 1].getD (d % 8) 0 = n) : q ≤ 5 * n ∧ 5 * n < q + 5 := by
  unfold decodedSize at hq
  have hlt : d % 8 < 8 := Nat.mod_lt _ (by decide)
  interval_cases hd : d % 8 <;> simp only [List.getD_cons_zero, List.getD_cons_succ] at hn <;> omega

/-- The zeros that fill the last byte and the last digit make up R151's number of zero symbols. -/
theorem encodeBytes_decodeSymbols (syms : List Symbol) :
    encodeBytes (decodeSymbols syms) =
      syms ++ List.replicate ([0, 1, 2, 1, 1, 2, 1, 1].getD (syms.length % 8) 0) 0#5 := by
  have hbits := bits_decodeSymbols syms
  generalize hq : 8 * decodedSize syms.length - 5 * syms.length = q at hbits
  generalize hn : [0, 1, 2, 1, 1, 2, 1, 1].getD (syms.length % 8) 0 = n
  obtain ⟨hle, hlt⟩ := zeroSymbols_bounds syms.length hq hn
  have hsum : q + (5 * n - q) = 5 * n := by omega
  refine (eq_encodeBytes_of_bits (p := 5 * n - q) (by omega) ?_).symm
  simp [hbits, flatMap_bitsOf_replicate_zero, hsum]

/-- The words of a symbol job hold no command of another sub-block. -/
theorem commandsOf_symJob_eq_nil {b : SubBlock} (hb : b ≠ .decoder) (syms : List Symbol) :
    commandsOf b ((symJob syms).map encode) = [] := by
  rw [commandsOf_map_encode]
  simp [symJob, subBlock, Ne.symm hb]

end Sys2Proof.Machine

open Sys2Proof Sys2Proof.Machine

/-- Settles O41: the bits of the job's bytes are the symbols' bits and fewer than eight zeros. -/
theorem decodeJobEmitsDecodeOfItsSymbols : Obligations.DecodeJobEmitsDecodeOfItsSymbols := by
  unfold Obligations.DecodeJobEmitsDecodeOfItsSymbols
  intro s pre post syms hcnt herr hpre hpost
  obtain ⟨u, rs, hrun, -⟩ := exists_answers pre s
  obtain ⟨t, qs, hrunPost, hkeeps⟩ := exists_answers post u.decFlushed
  obtain ⟨hacc', hcnt', herr', hnone⟩ := (hkeeps _ hpost).decoder rfl
  obtain ⟨hbytes, hu⟩ := hrun.bytesOf_decJob hcnt hpre
  have hjob := hrun.decFlush hrunPost
  have hverdict := flushResponse_eq_bytes_verdict u
  rw [hu, herr] at hverdict
  exact ⟨t, rs, qs, u.flushResponse, hjob.runs, by simp [hjob.responses], hrun.length, hrunPost.length, hbytes,
    hbytes ▸ length_decodeSymbols syms, hnone, hverdict, hcnt', hacc', herr'⟩

/-- Settles O42: DEC.INIT clears the decoder, so that DEC_ERR and the bytes are those of the characters alone. -/
theorem characterJobValidatesAndDecodes : Obligations.CharacterJobValidatesAndDecodes := by
  unfold Obligations.CharacterJobValidatesAndDecodes
  intro s chars
  obtain ⟨t, rs, bytes, hrun, htokens, hbytes⟩ := answers_charJob chars s
  have hlast : rs.flatten.getLast? = some (.W (if ∃ c ∈ chars, canonRom c = 0x00#8 then 0x01#8 else 0x00#8)) := by
    rw [htokens, List.getLast?_concat]
  refine ⟨t, rs, hrun.runs, hrun.responses, ?_, fun hvalid => ?_, fun hinvalid => ?_, ?_⟩
  · rw [hlast]
    simp
  · rw [htokens, hbytes hvalid, if_neg (by simpa using hvalid)]
    rfl
  · rw [hlast, if_pos hinvalid]
  · rintro rfl
    rw [htokens, hbytes (by simp)]
    rfl

/-- Settles O43: the start clears DEC_ERR, the words set it or keep it, and DEC.FLUSH reports it. -/
theorem verdictSaysWhetherACharacterWasInvalid : Obligations.VerdictSaysWhetherACharacterWasInvalid := by
  unfold Obligations.VerdictSaysWhetherACharacterWasInvalid
  intro s start ws hstart hws
  obtain ⟨u, rs₀, hstep, hinputs, hresp, hclear⟩ :=
    step_clears_decErr hstart s (ws.map .command ++ [.command (encode .decFlush)])
  obtain ⟨v, rs, hrun, herr⟩ := answers_decErr hws u
  have hjob := hrun.decFlush (.nil _)
  have hall : run (ws.length + 1) u = runWords (ws ++ [encode .decFlush]) u := by
    rw [← run_eq_runWords (by simpa using hinputs), List.length_append, List.length_singleton]
  simp only [errorOf_eq_invalidDigit_iff] at herr
  refine ⟨_, rs₀ ++ rs, v.flushResponse, (run_succ _ hstep).trans (hall.trans hjob.runs),
    hjob.responses.trans (by simp [hresp]), rfl, fun hinvalid => ?_, fun hvalid => ?_⟩
  · rw [getLast?_flushResponse, herr, if_pos hinvalid]
    rfl
  · have hnone : ¬ ∃ w ∈ ws, ∃ c : Byte, decode w = .ok (.decChar c) ∧ canonRom c = 0x00#8 :=
      fun ⟨w, hw, c, hd, hc⟩ => hvalid w hw c hd hc
    rw [getLast?_flushResponse, herr, if_neg hnone, hclear]
    rfl

/-- Settles O45: the encode job finds its engine as the decode job found it, and emits ENCODE of DECODE of the
symbols. -/
theorem encodingADecodedJobGivesItsSymbols : Obligations.EncodingADecodedJobGivesItsSymbols := by
  unfold Obligations.EncodingADecodedJobGivesItsSymbols
  intro s syms hencCnt hdecCnt _
  obtain ⟨t, rs, hrun, hbytes⟩ := answers_symJob syms hdecCnt
  obtain ⟨-, hcnt, -⟩ := (hrun.keeps (commandsOf_symJob_eq_nil (by decide) syms)).encoder rfl
  obtain ⟨u, qs, hrun', hdigits, -, -⟩ :=
    answers_encJob (hcnt.trans hencCnt) (commandsOf_encJob (decodeSymbols syms))
  refine ⟨t, u, rs, qs, hrun.runs, hrun.responses, hbytes, hbytes ▸ hrun'.runs, hrun'.responses,
    hdigits.trans (encodeBytes_decodeSymbols syms), ?_⟩
  rw [hdigits, length_encodeBytes, length_decodeSymbols]
  rfl

/-- Settles O25: the byte and the bits kept are fields of the pending bits joined to the symbol, read at each count. -/
theorem decSymEmitsAByteWhenEightBitsAreThere : Obligations.DecSymEmitsAByteWhenEightBitsAreThere := by
  unfold Obligations.DecSymEmitsAByteWhenEightBitsAreThere
  refine ⟨fun x => decode_encode (.decSym x), fun rsv hi x h => decode_symbolRow_isError h x, fun x s hcnt => ?_,
    fun x s hcnt => exec_decSym_no_byte x 1 hcnt (by decide), fun x s hcnt => ?_, fun x s hcnt => ?_,
    fun x s hcnt => ?_, fun x s hcnt => ?_, fun x s hcnt => ?_, fun x s hcnt => ?_,
    fun x s t hlegal ht => exec_legal _ hlegal ht⟩
  · have hnone : s.decAcc.extractLsb' 0 0 ++ x = x := BitVec.zero_width_append _ _
    rw [exec_decSym_no_byte x 0 hcnt (by decide), hnone]
  · have hkept : (s.decAcc.extractLsb' 0 2 ++ x).setWidth 7 = s.decAcc.extractLsb' 0 2 ++ x := BitVec.setWidth_eq _
    rw [exec_decSym_no_byte x 2 hcnt (by decide), hkept]
  · rw [exec_decSym_byte x 0 hcnt (by decide) (slice_append_all _ _ 3)]
    simp
  · exact exec_decSym_byte x 1 hcnt (by decide) (slice_append_straddle (lo := 1) (n := 4) s.decAcc x rfl)
  · exact exec_decSym_byte x 2 hcnt (by decide) (slice_append_straddle (lo := 2) (n := 3) s.decAcc x rfl)
  · exact exec_decSym_byte x 3 hcnt (by decide) (slice_append_straddle (lo := 3) (n := 2) s.decAcc x rfl)
  · have hall : s.decAcc.extractLsb' 0 7 = s.decAcc := BitVec.extractLsb'_eq_self
    have hb : slice 4 8 (s.decAcc ++ x) = s.decAcc.extractLsb' 0 7 ++ x.extractLsb' 4 1 :=
      slice_append_straddle (lo := 4) (n := 1) s.decAcc x rfl
    rw [exec_decSym_byte x 4 hcnt (by decide) hb, hall]

/-- Settles O26: a valid character carries the symbol that its value extends. -/
theorem decCharAppendsValidAndFlagsInvalid : Obligations.DecCharAppendsValidAndFlagsInvalid := by
  unfold Obligations.DecCharAppendsValidAndFlagsInvalid
  refine ⟨operandRow_of_encode fun _ => rfl, fun c s hvalid => ?_,
    fun c s hinvalid => exec_decChar_invalid ((charValid_eq_false_iff c).mpr hinvalid) s,
    fun c hc => valueRom_of_canonRom (canonRom_zero_forms c (List.mem_cons_of_mem _ hc)),
    fun c hc => valueRom_of_canonRom (canonRom_one_forms c (List.mem_cons_of_mem _ hc)), fun v hletter => ?_, by decide,
    by decide, by decide, fun _ => canonRom_of_toNat_ge⟩
  · obtain ⟨x, -, hvalue⟩ := exists_alphabet_of_canonRom_ne_zero hvalid
    refine ⟨x, appendSymbol x s, hvalue, rfl, ?_⟩
    rw [exec_decChar_valid (charValid_of_canonRom_ne_zero hvalid), charSymbol_of_valueRom hvalue]
  · rw [valueRom_of_canonRom (canonRom_small_letter v hletter), valueRom_alphabet]

/-- Settles O27: the byte is the pending bits shifted to its top. -/
theorem decFlushEmitsThePaddedByteAndTheVerdict : Obligations.DecFlushEmitsThePaddedByteAndTheVerdict := by
  unfold Obligations.DecFlushEmitsThePaddedByteAndTheVerdict
  refine ⟨plainRow_of_encode rfl (by decide), fun s hcnt => ?_, fun s hcnt => ?_⟩
  · have hnone : flushBytes s = [] := by simp [flushBytes, hcnt]
    rw [exec_decFlush, State.decFlushed, State.flushResponse, hnone]
    rfl
  · have hpos : s.decCnt.toNat > 0 := by bv_omega
    have hbyte : flushBytes s = [.B (padByte s.decAcc s.decCnt)] := if_pos hpos
    refine ⟨padByte s.decAcc s.decCnt, fun i hi => getMsbD_pad s.decAcc (by omega) hi, ?_⟩
    rw [exec_decFlush, State.decFlushed, State.flushResponse, hbyte]
    rfl

/-- Settles O24: DEC.INIT's row, and its clear, which is what `exec` performs. -/
theorem decInitClearsTheDecoder : Obligations.DecInitClearsTheDecoder := by
  unfold Obligations.DecInitClearsTheDecoder
  exact ⟨plainRow_of_encode rfl (by decide), fun _ => rfl⟩

end

section
/-! Proofs about the status command (43_status.md): the fields of its word (R26), and its row and effect (R170). -/

namespace Sys2Proof.Machine

/-! ### The status word (R26) -/

/-- R170's two forms of the word, the shifted and the concatenated, are one. -/
theorem statusWord_eq_append (encCnt : BitVec 3) (decErr : BitVec 1) (decCnt : BitVec 3) :
    statusWord encCnt decErr decCnt = 0#1 ++ encCnt ++ decErr ++ decCnt := by
  have happend : (0#1 ++ encCnt ++ decErr ++ decCnt).toNat =
      encCnt.toNat <<< 4 ||| decErr.toNat <<< 3 ||| decCnt.toNat := by
    rw [BitVec.toNat_append, BitVec.toNat_append, BitVec.toNat_append]
    simp [Nat.shiftLeft_or_distrib, ← Nat.shiftLeft_add]
  have henc : encCnt.toNat <<< 4 < 2 ^ 8 := by omega
  have herr : decErr.toNat <<< 3 < 2 ^ 8 := by omega
  apply BitVec.eq_of_toNat_eq
  rw [happend, statusWord, BitVec.toNat_or, BitVec.toNat_or, BitVec.toNat_shiftLeft, BitVec.toNat_shiftLeft,
    BitVec.toNat_setWidth_of_le (by decide), BitVec.toNat_setWidth_of_le (by decide),
    BitVec.toNat_setWidth_of_le (by decide), Nat.mod_eq_of_lt henc, Nat.mod_eq_of_lt herr]

theorem statusWord_bit7 (encCnt : BitVec 3) (decErr : BitVec 1) (decCnt : BitVec 3) :
    (statusWord encCnt decErr decCnt).extractLsb' 7 1 = 0#1 := by
  rw [statusWord_eq_append, BitVec.extractLsb'_append_eq_of_le (by decide),
    BitVec.extractLsb'_append_eq_of_le (by decide)]
  exact BitVec.extractLsb'_append_eq_left

theorem statusWord_encCnt (encCnt : BitVec 3) (decErr : BitVec 1) (decCnt : BitVec 3) :
    (statusWord encCnt decErr decCnt).extractLsb' 4 3 = encCnt := by
  rw [statusWord_eq_append, BitVec.extractLsb'_append_eq_of_le (by decide),
    BitVec.extractLsb'_append_eq_of_le (by decide)]
  exact BitVec.extractLsb'_append_eq_right

/-! ### STATUS (R170) -/

theorem exec_status (s : State) :
    exec .status s = .next (s.respond [.W (statusWord s.encCnt s.decErr s.decCnt)]) := rfl

theorem eq_statusWord_of_exec {s t : State} {w : Byte} (h : exec .status s = .next t)
    (hresp : t.responses = s.responses ++ [[.W w]]) : w = statusWord s.encCnt s.decErr s.decCnt := by
  rw [exec_status] at h
  cases h
  simpa using hresp.symm

/-- A run that ends in STATUS ends with the status word of the state before it. -/
theorem Answers.concat_status {ws : List Word} {s t : State} {rs : List (List Token)} (h : Answers ws s t rs) :
    ∃ u, Answers (ws ++ [encode .status]) s u (rs ++ [[.W (statusWord t.encCnt t.decErr t.decCnt)]]) :=
  ⟨_, h.append ((Answers.nil _).cons_of_exec (decode_encode .status) (exec_status t) rfl)⟩

end Sys2Proof.Machine

open Sys2Proof Sys2Proof.Machine

/-- Settles O28: the status word is the concatenation of its fields, so a legal state's bound on ENC_CNT is its field's;
R170's example is run to the state before its STATUS. -/
theorem statusComposesTheWord : Obligations.StatusComposesTheWord := by
  unfold Obligations.StatusComposesTheWord
  refine ⟨plainRow_of_encode rfl (by decide), fun s => ?_, rfl, fun s t w hlegal hexec hresp => ?_, ?_⟩
  · rw [exec_status, statusWord_eq_append]
    rfl
  · obtain ⟨hcnt, -, -⟩ := hlegal
    rw [eq_statusWord_of_exec hexec hresp, statusWord_encCnt]
    exact ⟨hcnt, statusWord_bit7 _ _ _⟩
  · have hinvalid := exec_decChar_invalid (c := 0x55#8) (by decide) (appendByte 0xFF#8 State.reset)
    have hrun := ((Answers.nil _).cons_of_exec (decode_encode _) hinvalid rfl).cons_of_exec
      (decode_encode (.encByte 0xFF#8)) (s := State.reset) rfl rfl
    obtain ⟨t, hstatus⟩ := hrun.concat_status
    refine ⟨t, hstatus.runs, ?_⟩
    rw [hstatus.responses]
    rfl

end

section
/-! Proofs about the error outcomes (60_exceptions.md): which words raise them (R200, R203), what a command without one
does (R201), and the command read from a table word (R209). -/

namespace Sys2Proof.Machine

/-! ### The outcome of a word (R200, R203) -/

/-- The words that raise ILLEGAL_COMMAND are those that do not decode, beside `errorOf_eq_invalidDigit_iff` (R200). -/
theorem errorOf_eq_illegalCommand_iff (w : Word) :
    errorOf w = some .illegalCommand ↔ ∃ e : Illegal, decode w = .error e := by
  unfold errorOf
  split
  next e hd => simp [hd]
  next c hd => cases charValid c <;> simp [hd]
  next i _ hd => simp [hd]

/-! ### A command that raises nothing (R201) -/

/-- No command responds with `ILL`. -/
theorem Emits.ill_notMem {i : Instr} {r : List Token} (h : Emits i r) : Token.ILL ∉ r := by
  cases i with
  | canon _ | isvalid _ | value _ | digit _ | status =>
    obtain ⟨w, rfl⟩ := h
    simp
  | encInit | decInit =>
    cases h
    simp
  | encByte _ => obtain ⟨x, cx, rfl | ⟨y, cy, rfl⟩⟩ := h <;> simp
  | encFlush => obtain rfl | ⟨x, cx, rfl⟩ := h <;> simp
  | decSym _ | decChar _ => obtain rfl | ⟨b, rfl⟩ := h <;> simp
  | decFlush => obtain ⟨w, rfl | ⟨b, rfl⟩⟩ := h <;> simp

/-- A command whose word raises nothing leaves DEC_ERR set only where it was set. -/
theorem decErr_of_exec_of_errorOf_none {w : Word} {i : Instr} {s t : State} (hd : decode w = .ok i)
    (hnone : errorOf w = none) (h : exec i s = .next t) (herr : t.decErr = 1#1) : s.decErr = 1#1 := by
  by_cases hclear : i = .decInit ∨ i = .decFlush
  · have hzero : t.decErr = 0#1 := by
      obtain rfl | rfl := hclear <;> cases h <;> rfl
    exact absurd (herr.symm.trans hzero) (by decide)
  · obtain ⟨hinit, hflush⟩ := not_or.mp hclear
    rw [exec_decErr hd hinit hflush h] at herr
    simpa [hnone] using herr

/-- DEC.CHAR with an invalid character answers nothing and sets DEC_ERR alone (R146). -/
theorem exec_decChar_invalid_effect {c : Byte} (hc : canonRom c = 0x00#8) {s t : State} {r : List Token}
    (h : exec (.decChar c) s = .next t) (hresp : t.responses = s.responses ++ [r]) :
    r = [] ∧ t = { s with decErr := 1#1, responses := t.responses } := by
  rw [exec_decChar_invalid ((charValid_eq_false_iff c).mpr hc)] at h
  cases h
  exact ⟨by simpa using hresp.symm, rfl⟩

/-! ### A table word (R209) -/

theorem decode_of_decodeTableWord {nbits w : Nat} {i : Instr} (h : decodeTableWord nbits w = some i) :
    decode (BitVec.ofNat 16 (w % 2 ^ nbits)) = .ok i := by
  unfold decodeTableWord at h
  split at h
  next =>
    split at h
    next j hd =>
      cases h
      exact hd
    next => cases h
  next => cases h

end Sys2Proof.Machine

open Sys2Proof Sys2Proof.Machine

/-- Settles O33: an illegal word is answered before it is performed; any other is its command's `exec`, which sets
DEC_ERR only for an invalid character. -/
theorem errorOutcomesAndTheirPriority : Obligations.ErrorOutcomesAndTheirPriority := by
  unfold Obligations.ErrorOutcomesAndTheirPriority
  intro s w rest hin
  have hillegal := errorOf_eq_illegalCommand_iff w
  have hinvalid := errorOf_eq_invalidDigit_iff w
  cases hd : decode w with
  | error e =>
    have herr : errorOf w = some .illegalCommand := hillegal.mpr ⟨e, hd⟩
    exact ⟨_, [.ILL], step_of_illegal_word hin hd, rfl, fun _ => ⟨herr, rfl, rfl⟩, by simp, by simp [herr],
      fun _ => ⟨e, rfl⟩, by simp [herr]⟩
  | ok i =>
    obtain ⟨t, r, hexec, hresp, -⟩ := exec_next i { s with inputs := rest }
    have hstep := step_of_legal_word hin hd
    rw [hd] at hillegal hinvalid
    refine ⟨t, r, hstep.trans hexec, hresp, by simp, fun c hc hcanon => ?_, fun hnone => ?_, hillegal.mp,
      hinvalid.mp⟩
    · cases hc
      exact ⟨hinvalid.mpr ⟨c, rfl, hcanon⟩, exec_decChar_invalid_effect hcanon hexec hresp⟩
    · exact ⟨⟨i, rfl, hstep⟩, (emits_of_exec hexec hresp).ill_notMem,
        decErr_of_exec_of_errorOf_none (s := { s with inputs := rest }) hd hnone hexec⟩

/-- Settles O8: the word presented is the one the table word's reading decodes, and the step takes it off again. -/
theorem fetchWordRunsTheTableInstruction : Obligations.FetchWordRunsTheTableInstruction := by
  unfold Obligations.FetchWordRunsTheTableInstruction
  intro s nbits w i h
  exact step_of_legal_word rfl (decode_of_decodeTableWord h)

end

section
/-! Proofs about reset (70_reset_and_hazards.md): the registers after it (R230), and the two INIT commands, which together
do to the registers what reset does (R232) in either order (R233). -/

namespace Sys2Proof.Machine

/-! ### ENC.INIT and DEC.INIT (R123, R143) -/

theorem exec_encInit (s : State) : exec .encInit s = .next ((s.writeEncoder 0#4 0#3).respond []) := rfl

theorem exec_decInit (s : State) :
    exec .decInit s = .next (((s.writeDecoder 0#7 0#3).writeDecErr errClear).respond []) := rfl

/-- Reset and two empty responses: what both INIT commands in a row come to. -/
theorem applyReset_respond_nil_nil (s : State) :
    ((applyReset s).respond []).respond [] =
      { State.reset with inputs := s.inputs, responses := s.responses ++ [[], []] } := by
  rw [applyReset_eq]
  simp [State.respond]

/-- The two clears write all five registers, so nothing of the state before them is left but the interface. -/
theorem exec_decInit_after_encInit {s t : State} (h : exec .encInit s = .next t) :
    exec .decInit t = .next (((applyReset s).respond []).respond []) := by
  rw [exec_encInit] at h
  cases h
  rfl

/-- The order of the two clears does not matter: they write different registers. -/
theorem exec_encInit_after_decInit {s t : State} (h : exec .decInit s = .next t) :
    exec .encInit t = .next (((applyReset s).respond []).respond []) := by
  rw [exec_decInit] at h
  cases h
  rfl

end Sys2Proof.Machine

open Sys2Proof Sys2Proof.Machine

/-- Settles O11: the reset step is `applyReset`, which the two INIT commands perform with a response each. -/
theorem resetIsBothInitsWithoutAToken : Obligations.ResetIsBothInitsWithoutAToken := by
  unfold Obligations.ResetIsBothInitsWithoutAToken
  intro s rest hin
  have hdec := exec_decInit_after_encInit (exec_encInit s)
  refine ⟨_, _, _, step_of_reset hin, exec_encInit s, hdec, ?_⟩
  rw [applyReset_respond_nil_nil, applyReset_eq]

/-- Settles O12: the registers of the reset state are those written out, and STATUS joins their zero fields. -/
theorem resetRegistersAreZero : Obligations.ResetRegistersAreZero := by
  unfold Obligations.ResetRegistersAreZero
  have hword : statusWord State.reset.encCnt State.reset.decErr State.reset.decCnt = 0x00#8 := by decide
  refine ⟨_, _, rfl, ?_⟩
  rw [exec_status, hword]
  rfl

/-- Settles O13: either order of the two commands clears all five registers. -/
theorem bothInitsInEitherOrderClearTheCore : Obligations.BothInitsInEitherOrderClearTheCore := by
  unfold Obligations.BothInitsInEitherOrderClearTheCore
  intro s
  have hclear := applyReset_respond_nil_nil s
  exact ⟨⟨_, _, exec_encInit s, exec_decInit_after_encInit (exec_encInit s), hclear⟩,
    ⟨_, _, exec_decInit s, exec_encInit_after_decInit (exec_decInit s), hclear⟩⟩

end
